-- ==== Sys2Proof/Word.lean ====
section
/-! DEFINITION. The one word type of the CORE: the byte. Registers, memory cells, immediates and stack items are all
unsigned 8-bit values (00_scope.md R12, 20_memory.md R55). Addresses and the instruction pointer are not words: they are
integers that are never reduced (10_state.md R27). -/

namespace Sys2Proof

/-- A register value, a memory cell, an opcode or operand byte: 8 bits, unsigned 0..255 (00_scope.md R8 `XLEN`, `BYTE`). -/
abbrev Byte := BitVec 8

end Sys2Proof
end

