-- ==== Sys2Proof/Config.lean ====
section
/-! DEFINITION. What one CORE is built with (00_scope.md R8): the default memory capacity and the type of opcode maps. The
default opcode VALUES stand in Decode.lean. The spec leaves no result open, so there is no free value here. -/

namespace Sys2Proof

/-- The default memory capacity `C` in bytes (00_scope.md R8); any `C >= 1` is allowed, so a `Memory` carries its own. -/
def defaultCapacity : Nat := 10000

/-- The opcode table as configuration (10_state.md R34, parameter `OPCODE_MAP` of 00_scope.md R8): the one opcode byte that
selects each instruction (30_encoding.md R86). -/
structure OpcodeMap where
  hlt  : Byte
  ldi  : Byte
  prn  : Byte
  push : Byte
  pop  : Byte
  call : Byte
  ret  : Byte
  add  : Byte
  sub  : Byte
  mul  : Byte
  div  : Byte
  deriving DecidableEq, Repr

/-- The eleven opcode bytes of a map, in the order of spec/opcode_table.json. -/
def OpcodeMap.bytes (m : OpcodeMap) : List Byte :=
  [m.hlt, m.ldi, m.prn, m.push, m.pop, m.call, m.ret, m.add, m.sub, m.mul, m.div]

end Sys2Proof
end

