-- ==== Sys2Proof/Syntax.lean ====
section
/-! DEFINITION. The instruction set of the CORE: the eleven rows of spec/opcode_table.json (00_scope.md R3, 30_encoding.md
R81), the names a handler is selected by, and the four formats. -/

namespace Sys2Proof

/-- One instruction with its operands (30_encoding.md R82). A register operand is the number in the whole operand byte, not
masked: a number of 8 or more decodes, and the register access faults when it executes. `imm8` is the immediate byte. -/
inductive Instr where
  /-- HLT, format `N` (41_basic.md R130). -/
  | hlt
  /-- LDI r, imm8, format `RI` (41_basic.md R131). -/
  | ldi (r : Nat) (imm8 : Byte)
  /-- PRN r, format `R` (41_basic.md R132). -/
  | prn (r : Nat)
  /-- PUSH r, format `R` (42_stack.md R150). -/
  | push (r : Nat)
  /-- POP r, format `R` (42_stack.md R151). -/
  | pop (r : Nat)
  /-- CALL r, format `R` (43_control_transfer.md R170). -/
  | call (r : Nat)
  /-- RET, format `N` (43_control_transfer.md R171). -/
  | ret
  /-- ADD a, b, format `RR` (44_alu.md R193). -/
  | add (a b : Nat)
  /-- SUB a, b, format `RR` (44_alu.md R194). -/
  | sub (a b : Nat)
  /-- MUL a, b, format `RR` (44_alu.md R195). -/
  | mul (a b : Nat)
  /-- DIV a, b, format `RR` (44_alu.md R196). -/
  | div (a b : Nat)
  deriving DecidableEq, Repr

/-- The handlers of the opcode table, by mnemonic (40_dispatch.md R105). -/
inductive Mnemonic where
  | hlt | ldi | prn | push | pop | call | ret | add | sub | mul | div
  deriving DecidableEq, Repr

/-- The four instruction formats (30_encoding.md R81). -/
inductive Format where
  /-- No operand byte. -/
  | n
  /-- One register-index byte. -/
  | r
  /-- A register-index byte, then an immediate byte. -/
  | ri
  /-- Two register-index bytes, the destination first. -/
  | rr
  deriving DecidableEq, Repr

/-- The handler an instruction belongs to. -/
def Instr.mnemonic : Instr → Mnemonic
  | .hlt => .hlt
  | .ldi _ _ => .ldi
  | .prn _ => .prn
  | .push _ => .push
  | .pop _ => .pop
  | .call _ => .call
  | .ret => .ret
  | .add _ _ => .add
  | .sub _ _ => .sub
  | .mul _ _ => .mul
  | .div _ _ => .div

/-- The register operands of an instruction, in operand order (10_state.md R26). -/
def Instr.registerOperands : Instr → List Nat
  | .hlt => []
  | .ldi r _ => [r]
  | .prn r => [r]
  | .push r => [r]
  | .pop r => [r]
  | .call r => [r]
  | .ret => []
  | .add a b => [a, b]
  | .sub a b => [a, b]
  | .mul a b => [a, b]
  | .div a b => [a, b]

end Sys2Proof
end

