-- ==== Sys2Proof/WellFormed.lean ====
section
/-! DEFINITION. Which instructions have an encoding, and which opcode maps the spec allows. -/

namespace Sys2Proof

/-- A register operand fits its operand byte: 0..255 (30_encoding.md R82). It need not be below 8: an index of 8 or more
"is not an illegal encoding". -/
abbrev operandFits (r : Nat) : Prop := r < 256

/-- An instruction is well-formed when every register operand fits its byte. Immediates are bytes already. -/
abbrev Instr.wellFormed (i : Instr) : Prop := ∀ r ∈ i.registerOperands, operandFits r

/-- The first condition of 30_encoding.md R88 on an opcode map: HLT, LDI and PRN keep the values of R87. -/
abbrev OpcodeMap.keepsSourceValues (m : OpcodeMap) : Prop := m.hlt = 0x01 ∧ m.ldi = 0x82 ∧ m.prn = 0x47

/-- The second condition of 30_encoding.md R88: the eleven values are pairwise distinct. (The third, that each instruction
keeps its format and width, holds of every map: the type has no other.) -/
abbrev OpcodeMap.distinct (m : OpcodeMap) : Prop := m.bytes.Nodup

/-- An opcode map the spec allows (30_encoding.md R88). -/
abbrev OpcodeMap.wellFormed (m : OpcodeMap) : Prop := m.keepsSourceValues ∧ m.distinct

end Sys2Proof
end

