-- ==== Sys2Proof/Decode.lean ====
section
/-! DEFINITION. The encoding tables (30_encoding.md R81 to R88), the decoder, total on any bytes and for any opcode map, the
encoder written from the same tables, and the reading of a table word. -/

namespace Sys2Proof

/-- The format of each handler's instructions (30_encoding.md R81). -/
def Mnemonic.format : Mnemonic → Format
  | .hlt => .n
  | .ldi => .ri
  | .prn => .r
  | .push => .r
  | .pop => .r
  | .call => .r
  | .ret => .n
  | .add => .rr
  | .sub => .rr
  | .mul => .rr
  | .div => .rr

/-- How many operand bytes follow the opcode in each format (30_encoding.md R81). -/
def Format.operandCount : Format → Nat
  | .n => 0
  | .r => 1
  | .ri => 2
  | .rr => 2

/-- How many operand bytes a handler reads: `h.width - 1` (40_dispatch.md R103). -/
def Mnemonic.operandCount (h : Mnemonic) : Nat := h.format.operandCount

/-- The encoded length in bytes: the opcode and its operand bytes (30_encoding.md R83). -/
def Mnemonic.width (h : Mnemonic) : Nat := 1 + h.operandCount

/-- The opcode byte a map gives a handler (30_encoding.md R86). -/
def OpcodeMap.opcodeOf (m : OpcodeMap) : Mnemonic → Byte
  | .hlt => m.hlt
  | .ldi => m.ldi
  | .prn => m.prn
  | .push => m.push
  | .pop => m.pop
  | .call => m.call
  | .ret => m.ret
  | .add => m.add
  | .sub => m.sub
  | .mul => m.mul
  | .div => m.div

/-- The default opcode values: HLT, LDI and PRN from 30_encoding.md R87, the other eight from R88 (log entry 4). -/
def defaultOpcodes : OpcodeMap where
  hlt  := 0x01
  ldi  := 0x82
  prn  := 0x47
  push := 0x45
  pop  := 0x46
  call := 0x50
  ret  := 0x11
  add  := 0xA0
  sub  := 0xA1
  mul  := 0xA2
  div  := 0xA3

/-- Every handler, in the order of spec/opcode_table.json. -/
def allMnemonics : List Mnemonic :=
  [.hlt, .ldi, .prn, .push, .pop, .call, .ret, .add, .sub, .mul, .div]

/-- The lookup in the opcode table: the handler of an opcode byte, or none (40_dispatch.md R102, 30_encoding.md R89). It reads
the opcode byte alone. -/
def OpcodeMap.lookup (m : OpcodeMap) (op : Byte) : Option Mnemonic :=
  allMnemonics.find? (fun h => m.opcodeOf h = op)

/-- The instruction of a handler and its operand bytes: byte 1 and byte 2, each a whole unsigned byte (30_encoding.md R82).
A format with fewer operand bytes ignores the rest. -/
def assemble (h : Mnemonic) (operands : List Byte) : Instr :=
  let b1 := operands.getD 0 0
  let b2 := operands.getD 1 0
  match h with
  | .hlt => .hlt
  | .ldi => .ldi b1.toNat b2
  | .prn => .prn b1.toNat
  | .push => .push b1.toNat
  | .pop => .pop b1.toNat
  | .call => .call b1.toNat
  | .ret => .ret
  | .add => .add b1.toNat b2.toNat
  | .sub => .sub b1.toNat b2.toNat
  | .mul => .mul b1.toNat b2.toNat
  | .div => .div b1.toNat b2.toNat

/-- Why a byte string does not begin with an instruction. -/
inductive DecodeError where
  /-- There is no opcode byte. -/
  | noOpcode
  /-- The opcode byte has no handler (30_encoding.md R89). -/
  | illegalOpcode (op : Byte)
  /-- Operand byte `k` (1 or 2) is the first one missing (40_dispatch.md R103). -/
  | missingOperand (k : Nat)
  deriving DecidableEq, Repr

/-- The decoder for an opcode map: the instruction at the head of a byte string and the bytes after it, or the reason there is
none. The opcode is looked up before any operand byte is looked for (40_dispatch.md R106). -/
def decodeWith (m : OpcodeMap) : List Byte → Except DecodeError (Instr × List Byte)
  | [] => .error .noOpcode
  | op :: rest =>
    match m.lookup op with
    | none => .error (.illegalOpcode op)
    | some h =>
      if rest.length < h.operandCount then .error (.missingOperand (rest.length + 1))
      else .ok (assemble h (rest.take h.operandCount), rest.drop h.operandCount)

/-- The decoder under the default opcode map. -/
def decode (bytes : List Byte) : Except DecodeError (Instr × List Byte) := decodeWith defaultOpcodes bytes

/-- A register operand as its operand byte (30_encoding.md R82). -/
def operandByte (r : Nat) : Byte := BitVec.ofNat 8 r

/-- The operand bytes of an instruction, byte 1 first (30_encoding.md R81). -/
def Instr.operandBytes : Instr → List Byte
  | .hlt => []
  | .ldi r imm8 => [operandByte r, imm8]
  | .prn r => [operandByte r]
  | .push r => [operandByte r]
  | .pop r => [operandByte r]
  | .call r => [operandByte r]
  | .ret => []
  | .add a b => [operandByte a, operandByte b]
  | .sub a b => [operandByte a, operandByte b]
  | .mul a b => [operandByte a, operandByte b]
  | .div a b => [operandByte a, operandByte b]

/-- The encoder for an opcode map: the opcode byte, then the operand bytes (30_encoding.md R80, R81). -/
def encodeWith (m : OpcodeMap) (i : Instr) : List Byte := m.opcodeOf i.mnemonic :: i.operandBytes

/-- The encoder under the default opcode map. -/
def encode (i : Instr) : List Byte := encodeWith defaultOpcodes i

/-- The length of the longest instruction in bytes (30_encoding.md R91). -/
def longestWidth : Nat := 3

/-- The bytes of an instruction whose bits are `w`, numbered as spec/opcode_table.json numbers them: byte `k` is bits
`8k+7 .. 8k`, the opcode byte at the lowest address; every bit from `nbits` up is 0. -/
def tableWordBytes (nbits w : Nat) : List Byte :=
  (List.range longestWidth).map (fun k => BitVec.ofNat 8 ((w % 2 ^ nbits) / 2 ^ (8 * k)))

/-- The instruction the decoder reads from a table word, or none where it refuses. -/
def decodeTableWord (nbits w : Nat) : Option Instr :=
  match decode (tableWordBytes nbits w) with
  | .ok (i, _) => some i
  | .error _ => none

/-- A register name. For `0..7` it is the assembler syntax of 30_encoding.md R92. R92 gives no text for a register operand
of 8 or more, which every `R` format can hold (R82, R90); DESIGN CHOICE: the model writes it in the same form, `R8`, `R9` and
so on (log entry 18). -/
def registerName (r : Nat) : String := "R" ++ toString r

/-- The assembler text of an instruction (30_encoding.md R92): the mnemonic, then the operands in encoding order. The text of
a register operand of 8 or more is the model's choice (log entry 18). -/
def Instr.asm : Instr → String
  | .hlt => "HLT"
  | .ldi r imm8 => "LDI " ++ registerName r ++ "," ++ toString imm8.toNat
  | .prn r => "PRN " ++ registerName r
  | .push r => "PUSH " ++ registerName r
  | .pop r => "POP " ++ registerName r
  | .call r => "CALL " ++ registerName r
  | .ret => "RET"
  | .add a b => "ADD " ++ registerName a ++ "," ++ registerName b
  | .sub a b => "SUB " ++ registerName a ++ "," ++ registerName b
  | .mul a b => "MUL " ++ registerName a ++ "," ++ registerName b
  | .div a b => "DIV " ++ registerName a ++ "," ++ registerName b

end Sys2Proof
end

