-- ==== Sys2Proof/Machine/State.lean ====
section
/-! DEFINITION. The state of the CORE (10_state.md R20) as plain data, the fault kinds and records (60_exceptions.md R210,
R221), the observer events (R228), how a model step can stop, and the state at reset (10_state.md R39). -/

namespace Sys2Proof.Machine

/-- The states of the dispatch state machine (10_state.md R32). -/
inductive RunState where
  | idle
  | running
  | halted
  deriving DecidableEq, Repr

/-- The fault kinds of the CORE (60_exceptions.md R210). Taking one is a next state of the model (R220), not a stop. -/
inductive FaultKind where
  /-- A memory address outside `[0, capacity)`. -/
  | outOfBounds
  /-- A register index outside `[0, 8)`. -/
  | invalidRegister
  /-- A stack write that would collide with the program region. -/
  | stackOverflow
  /-- A pop with an empty stack. -/
  | stackUnderflow
  /-- An opcode byte with no handler. -/
  | illegalInstruction
  /-- The ALU invoked with an unknown operation tag; never from a step (44_alu.md R191). -/
  | unsupportedOperation
  /-- DIV with divisor 0. -/
  | divisionByZero
  /-- CALL whose own address does not fit in a one-byte stack slot. -/
  | returnAddressRange
  deriving DecidableEq, Repr

/-- What `raise K(value)` carries to fault entry (00_scope.md R11): the kind and the offending value. -/
structure Trap where
  kind  : FaultKind
  value : Int
  deriving DecidableEq, Repr

/-- The fault record (60_exceptions.md R221). `value` is an integer so that a stack address is recorded exactly as the rules
compute it; it is non-negative in every state a run reaches (log entry 5). -/
structure FaultRecord where
  kind  : FaultKind
  ip    : Nat
  value : Int
  deriving DecidableEq, Repr

/-- The events of the observer port (60_exceptions.md R228). `opcodeByte` is absent when no byte exists at `ip`. -/
inductive Event where
  /-- A completing PRN (41_basic.md R132). -/
  | print (ip : Nat) (opcodeByte : Option Byte) (registerSnapshot : Vector Byte 8) (value : Byte)
  /-- Fault entry (60_exceptions.md R220). -/
  | fault (ip : Nat) (opcodeByte : Option Byte) (registerSnapshot : Vector Byte 8) (kind : FaultKind) (value : Int)
  deriving DecidableEq, Repr

/-- The memory array of `capacity` bytes (10_state.md R21). `cells` lists the bytes that are not 0, addresses rising
(`Memory.wf`); an address below `capacity` that is not listed reads as 0, the reset contents (10_state.md R39). -/
structure Memory where
  capacity : Nat
  cells    : List Host.Cell
  deriving DecidableEq, Repr

/-- The state tuple of 10_state.md R20, and the model's own record of the emitted events (log entry 1). -/
structure State where
  /-- The memory array (R21). -/
  mem        : Memory
  /-- The general registers `R0` to `R7` (R22). -/
  regs       : Vector Byte 8
  /-- The instruction pointer, never reduced (R27). -/
  pc         : Nat
  /-- The number of items on the stack (R29). -/
  stackDepth : Nat
  /-- The first free address after the loaded program (R31). -/
  programEnd : Nat
  /-- The state of the dispatch state machine (R32). -/
  runState   : RunState
  /-- The fault record, or none (R33). -/
  fault      : Option FaultRecord
  /-- The observer events emitted so far, oldest first (60_exceptions.md R228, R229). -/
  events     : List Event
  deriving DecidableEq, Repr

/-- Why the model has no step from a state. These are not faults of the CORE: "No step exists in `Idle` or `Halted`"
(40_dispatch.md R110). -/
inductive Fault where
  /-- Raised by `stepWith` in Idle: the CORE waits for the host's `run`. Safe: nothing is provable of a next state. -/
  | noStepWhileIdle
  /-- Raised by `stepWith` in Halted, which is terminal. Safe: nothing is provable of a next state. -/
  | noStepWhileHalted
  deriving DecidableEq, Repr

/-- Why the model gives an instruction no meaning. -/
inductive Refusal where
  /-- Raised only by an arm of `exec` that has no meaning yet; there is none. Safe. -/
  | notModelled (mnemonic : String)
  deriving DecidableEq, Repr

/-- What a step or an instruction answers. -/
abbrev Result := Host.Outcome State Fault Refusal

/-- A CORE just constructed with `capacity` bytes (10_state.md R39, 70_reset_and_hazards.md R240). -/
def State.construct (capacity : Nat) : State where
  mem        := { capacity := capacity, cells := [] }
  regs       := Vector.replicate 8 0
  pc         := 0
  stackDepth := 0
  programEnd := 0
  runState   := .idle
  fault      := none
  events     := []

/-- Reset is construction (70_reset_and_hazards.md R240), here with the default capacity (log entry 3). -/
def State.reset : State := State.construct defaultCapacity

end Sys2Proof.Machine
end

