-- ==== Sys2Proof/Machine/Alu.lean ====
section
/-! DEFINITION. The ALU unit (44_alu.md R190, R191): a pure function of an 8-bit operation tag and two bytes. -/

namespace Sys2Proof.Machine

/-- The operation tags (44_alu.md R191). -/
def tagAdd : BitVec 8 := 0
def tagSub : BitVec 8 := 1
def tagMul : BitVec 8 := 2
def tagDiv : BitVec 8 := 3

/-- A mathematical integer reduced modulo 256, the remainder non-negative (00_scope.md R11, R12). -/
def narrow (x : Int) : Byte := BitVec.ofNat 8 (x % 256).toNat

/-- `apply(op, a, b)` (44_alu.md R190). -/
def aluApply (op : BitVec 8) (a b : Byte) : Except FaultKind Byte :=
  if op = tagAdd then .ok (narrow ((a.toNat : Int) + b.toNat))
  else if op = tagSub then .ok (narrow ((a.toNat : Int) - b.toNat))
  else if op = tagMul then .ok (narrow ((a.toNat : Int) * b.toNat))
  else if op = tagDiv then
    if b = 0 then .error .divisionByZero else .ok (narrow ((a.toNat : Int) / b.toNat))
  else .error .unsupportedOperation

end Sys2Proof.Machine
end

