-- ==== Sys2Proof/Machine/Ops.lean ====
section
/-! DEFINITION. The shared operations: memory (20_memory.md R50, R51), the stack manager (R60, R61), the observer port, fault
entry (60_exceptions.md R220) and the end of a handler. An operation that can raise answers `Except Trap`; the pre-state is
kept by the caller, so a step that raises has no other effect (40_dispatch.md R107). -/

namespace Sys2Proof.Machine

/-- The codes of the run states (10_state.md R36). -/
def RunState.code : RunState → Nat
  | .idle => 0
  | .running => 1
  | .halted => 2

/-- The fault codes (60_exceptions.md R210). -/
def FaultKind.code : FaultKind → Nat
  | .outOfBounds => 1
  | .invalidRegister => 2
  | .stackOverflow => 3
  | .stackUnderflow => 4
  | .illegalInstruction => 5
  | .unsupportedOperation => 6
  | .divisionByZero => 7
  | .returnAddressRange => 8

/-! ## Memory -/

/-- The canonical form of a memory: addresses strictly rising, no byte listed that is 0, every address below the capacity. -/
abbrev Memory.wf (m : Memory) : Prop :=
  m.cells.Pairwise (fun c d => c.1 < d.1) ∧ ∀ c ∈ m.cells, c.2 ≠ 0 ∧ c.1 < m.capacity

/-- What a list of cells holds at an address: the listed byte, or 0 (10_state.md R21 "zero-initialized"). -/
def cellAt : List Host.Cell → Nat → Byte
  | [], _ => 0
  | c :: cs, a => if c.1 = a then c.2 else cellAt cs a

/-- A cell put before the first cell of a higher address. -/
def insertCell (a : Nat) (v : Byte) : List Host.Cell → List Host.Cell
  | [] => [(a, v)]
  | c :: cs => if a < c.1 then (a, v) :: c :: cs else c :: insertCell a v cs

/-- The cells with address `a` holding `v`: the old entry goes, and a new one comes unless `v` is what an unlisted address
reads as. -/
def putCell (a : Nat) (v : Byte) (cells : List Host.Cell) : List Host.Cell :=
  if v = 0 then cells.filter (fun c => c.1 ≠ a) else insertCell a v (cells.filter (fun c => c.1 ≠ a))

/-- The byte `mem[a]`. Addresses from `capacity` up hold nothing; `Memory.read` keeps them out. -/
def Memory.byteAt (m : Memory) (a : Nat) : Byte := cellAt m.cells a

/-- The memory with `mem[a] <- v`. -/
def Memory.set (m : Memory) (a : Nat) (v : Byte) : Memory := { m with cells := putCell a v m.cells }

/-- The bounds check of 20_memory.md R50 and R51: `0 <= addr < C`. -/
abbrev Memory.inBounds (m : Memory) (addr : Int) : Prop := 0 ≤ addr ∧ addr < m.capacity

/-- `MemRead(addr, 1)` (20_memory.md R50). -/
def Memory.read (m : Memory) (addr : Int) : Except Trap Byte :=
  if m.inBounds addr then .ok (m.byteAt addr.toNat) else .error ⟨.outOfBounds, addr⟩

/-- `MemWrite(addr, 1, v)` (20_memory.md R51). -/
def Memory.write (m : Memory) (addr : Int) (v : Byte) : Except Trap Memory :=
  if m.inBounds addr then .ok (m.set addr.toNat v) else .error ⟨.outOfBounds, addr⟩

/-- `n` reads at increasing addresses from `addr`; the lowest address that does not exist is the one reported
(40_dispatch.md R103). -/
def Memory.readBytes (m : Memory) (addr : Nat) : Nat → Except Trap (List Byte)
  | 0 => .ok []
  | n + 1 =>
    match m.read addr with
    | .error t => .error t
    | .ok b =>
      match m.readBytes (addr + 1) n with
      | .error t => .error t
      | .ok bs => .ok (b :: bs)

/-! ## The stack manager -/

/-- `TOP = C - 1`, the highest stack address (00_scope.md R8). -/
def State.top (s : State) : Int := (s.mem.capacity : Int) - 1

/-- The derived stack pointer `SP = TOP - stack_depth`, the slot the next push writes (10_state.md R30). -/
def State.sp (s : State) : Int := s.top - s.stackDepth

/-- `push(v)` (20_memory.md R60). -/
def push (v : Byte) (s : State) : Except Trap State :=
  let addr := s.sp
  if addr - 1 ≤ s.programEnd then .error ⟨.stackOverflow, addr⟩
  else
    match s.mem.write addr v with
    | .error t => .error t
    | .ok mem => .ok { s with mem := mem, stackDepth := s.stackDepth + 1 }

/-- `pop()` (20_memory.md R61): the decrement, the read of the now-current top slot, and the zero written to it. -/
def pop (s : State) : Except Trap (Byte × State) :=
  if s.stackDepth = 0 then .error ⟨.stackUnderflow, 0⟩
  else
    let lowered : State := { s with stackDepth := s.stackDepth - 1 }
    match lowered.mem.read lowered.sp with
    | .error t => .error t
    | .ok v =>
      match lowered.mem.write lowered.sp 0 with
      | .error t => .error t
      | .ok mem => .ok (v, { lowered with mem := mem })

/-! ## The observer port, fault entry, the end of a handler -/

/-- `emit <Event>` (00_scope.md R11): the event goes after those emitted before it. -/
def emit (e : Event) (s : State) : State := { s with events := s.events ++ [e] }

/-- The opcode byte of the step's instruction: the byte at `pc`, absent when there is none (60_exceptions.md R228,
log entry 7). -/
def State.opcodeByte (s : State) : Option Byte :=
  match s.mem.read s.pc with
  | .ok op => some op
  | .error _ => none

/-- Fault entry (60_exceptions.md R220), of the state before the step: the record and the halt are written, the event is
emitted, and registers, memory, depth and pc keep their values. There is no return from a fault (R225). -/
def takeFault (t : Trap) (s : State) : State :=
  emit (.fault s.pc s.opcodeByte s.regs t.kind t.value)
    { s with fault := some { kind := t.kind, ip := s.pc, value := t.value }, runState := .halted }

/-- The end of a handler that began in `s`: the state it computed, or fault entry from `s` itself (40_dispatch.md R100,
R107). -/
def finish (s : State) : Except Trap State → Result
  | .ok t => .next t
  | .error t => .next (takeFault t s)

/-- The advance of `pc` by an instruction's width (40_dispatch.md R105). -/
def State.advance (n : Nat) (s : State) : State := { s with pc := s.pc + n }

/-- The jump of a control transfer: "sets IP directly" (40_dispatch.md R105). -/
def State.jump (target : Nat) (s : State) : State := { s with pc := target }

end Sys2Proof.Machine
end

