-- ==== Sys2Proof/Machine/Operands.lean ====
section
/-! DEFINITION. The operand forms (30_encoding.md R82): a register index, checked and then read or written, and an immediate
byte. There are no memory operands and no addressing modes. -/

namespace Sys2Proof.Machine

/-- `reg_ok(i)` (40_dispatch.md R104): InvalidRegister on an index of 8 or more. -/
def regOk (i : Nat) : Except Trap Unit :=
  if i < 8 then .ok () else .error ⟨.invalidRegister, i⟩

/-- Register read `get(idx)` (10_state.md R24). -/
def readReg (i : Nat) (s : State) : Except Trap Byte :=
  if h : i < 8 then .ok s.regs[i] else .error ⟨.invalidRegister, i⟩

/-- Register write `set(idx, v)` (10_state.md R25). -/
def writeReg (i : Nat) (v : Byte) (s : State) : Except Trap State :=
  if h : i < 8 then .ok { s with regs := s.regs.set i v } else .error ⟨.invalidRegister, i⟩

/-- The immediate of an `RI` instruction: the whole byte, zero-extended to the 8-bit register width, which changes nothing
(30_encoding.md R82). -/
def immediate (imm8 : Byte) : Byte := imm8.zeroExtend 8

end Sys2Proof.Machine
end

