-- ==== Sys2Proof/Machine/Arithmetic.lean ====
section
/-! DEFINITION. ADD, SUB, MUL and DIV (44_alu.md R192 to R196). -/

namespace Sys2Proof.Machine

/-- The common part of the four arithmetic instructions up to the `pc` update (44_alu.md R192): both register checks, the ALU,
the write of `x[a]`. DivisionByZero records the divisor's register index; any other error of the ALU would record the tag
(60_exceptions.md R210), and none arises with the four tags (44_alu.md R191). -/
def arithmetic (tag : BitVec 8) (a b : Nat) (s : State) : Except Trap State := do
  regOk a
  regOk b
  let x ← readReg a s
  let y ← readReg b s
  match aluApply tag x y with
  | .ok v => writeReg a v s
  | .error .divisionByZero => .error ⟨.divisionByZero, b⟩
  | .error kind => .error ⟨kind, tag.toNat⟩

/-- ADD a, b (44_alu.md R193). -/
def execAdd (a b : Nat) (s : State) : Result :=
  finish s (do
    let t ← arithmetic tagAdd a b s
    pure (t.advance Mnemonic.add.width))

/-- SUB a, b (44_alu.md R194). -/
def execSub (a b : Nat) (s : State) : Result :=
  finish s (do
    let t ← arithmetic tagSub a b s
    pure (t.advance Mnemonic.sub.width))

/-- MUL a, b (44_alu.md R195). -/
def execMul (a b : Nat) (s : State) : Result :=
  finish s (do
    let t ← arithmetic tagMul a b s
    pure (t.advance Mnemonic.mul.width))

/-- DIV a, b (44_alu.md R196). -/
def execDiv (a b : Nat) (s : State) : Result :=
  finish s (do
    let t ← arithmetic tagDiv a b s
    pure (t.advance Mnemonic.div.width))

end Sys2Proof.Machine
end

