-- ==== Sys2Proof/Machine/Basic.lean ====
section
/-! DEFINITION. HLT, LDI and PRN (41_basic.md), each in the order of the handler template (40_dispatch.md R112). -/

namespace Sys2Proof.Machine

/-- HLT (41_basic.md R130): `run_state <- Halted`; `pc` stays at the HLT's own address. -/
def execHlt (s : State) : Result := finish s (.ok { s with runState := .halted })

/-- LDI r, imm8 (41_basic.md R131). -/
def execLdi (r : Nat) (imm8 : Byte) (s : State) : Result :=
  finish s (do
    regOk r
    let t ← writeReg r (immediate imm8) s
    pure (t.advance Mnemonic.ldi.width))

/-- PRN r (41_basic.md R132): the event carries the PRN's address, its opcode byte, all registers and `x[r]`. -/
def execPrn (r : Nat) (s : State) : Result :=
  finish s (do
    regOk r
    let v ← readReg r s
    pure ((emit (.print s.pc s.opcodeByte s.regs v) s).advance Mnemonic.prn.width))

end Sys2Proof.Machine
end

