-- ==== Sys2Proof/Machine/Control.lean ====
section
/-! DEFINITION. CALL and RET (43_control_transfer.md), each in the order of the handler template (40_dispatch.md R112). -/

namespace Sys2Proof.Machine

/-- The address of a CALL as a one-byte stack item: ReturnAddressRange above 255 (43_control_transfer.md R170). -/
def returnAddress (pc : Nat) : Except Trap Byte :=
  if pc > 255 then .error ⟨.returnAddressRange, pc⟩ else .ok (BitVec.ofNat 8 pc)

/-- CALL r (43_control_transfer.md R170): pushes its own address, then jumps to `x[r]`, which is not checked. -/
def execCall (r : Nat) (s : State) : Result :=
  finish s (do
    regOk r
    let target ← readReg r s
    let self ← returnAddress s.pc
    let t ← push self s
    pure (t.jump target.toNat))

/-- RET (43_control_transfer.md R171): the popped byte plus the width of CALL, not reduced. -/
def execRet (s : State) : Result :=
  finish s (do
    let popped ← pop s
    pure (popped.2.jump (popped.1.toNat + Mnemonic.call.width)))

end Sys2Proof.Machine
end

