-- ==== Sys2Proof/Machine/Stack.lean ====
section
/-! DEFINITION. PUSH and POP (42_stack.md), each in the order of the handler template (40_dispatch.md R112). -/

namespace Sys2Proof.Machine

/-- PUSH r (42_stack.md R150). -/
def execPush (r : Nat) (s : State) : Result :=
  finish s (do
    regOk r
    let v ← readReg r s
    let t ← push v s
    pure (t.advance Mnemonic.push.width))

/-- POP r (42_stack.md R151): the register index is checked before the pop. -/
def execPop (r : Nat) (s : State) : Result :=
  finish s (do
    regOk r
    let popped ← pop s
    let t ← writeReg r popped.1 popped.2
    pure (t.advance Mnemonic.pop.width))

end Sys2Proof.Machine
end

