-- ==== Sys2Proof/Machine/Fetch.lean ====
section
/-! DEFINITION. The phases of a step before EXECUTE (40_dispatch.md R100 to R103): opcode fetch, decode, operand read. -/

namespace Sys2Proof.Machine

/-- `DECODE(op)` (40_dispatch.md R102): the handler, or IllegalInstruction with the opcode byte. -/
def decodeOpcode (m : OpcodeMap) (op : Byte) : Except Trap Mnemonic :=
  match m.lookup op with
  | some h => .ok h
  | none => .error ⟨.illegalInstruction, op.toNat⟩

/-- FETCH, DECODE and OPERANDS at `pc`, in that order (40_dispatch.md R100): the instruction with its operand bytes, or the
first fault met (R106). -/
def fetchInstr (m : OpcodeMap) (s : State) : Except Trap Instr := do
  let op ← s.mem.read s.pc
  let h ← decodeOpcode m op
  let operands ← s.mem.readBytes (s.pc + 1) h.operandCount
  pure (assemble h operands)

/-- The memory with bytes stored at increasing addresses from `addr`; bytes that fall at or beyond the capacity are left
out. -/
def Memory.place (addr : Nat) : List Byte → Memory → Memory
  | [], m => m
  | b :: bs, m => Memory.place (addr + 1) bs (if addr < m.capacity then m.set addr b else m)

/-- A CORE whose next step runs the instruction of a table word: its bytes stored at `pc` and the CORE Running. Nothing else
changes (log entry 6). -/
def placeFetchWord (s : State) (nbits w : Nat) : State :=
  { s with mem := Memory.place s.pc (tableWordBytes nbits w) s.mem, runState := .running }

end Sys2Proof.Machine
end

