-- ==== Sys2Proof/Machine/Cycle.lean ====
section
/-! DEFINITION. One step of the dispatch engine for an opcode map (40_dispatch.md R100). -/

namespace Sys2Proof.Machine

/-- `step()` (40_dispatch.md R100): defined only while Running (R110); the first phase that raises ends the step with fault
entry (60_exceptions.md R220). -/
def stepWith (m : OpcodeMap) (s : State) : Result :=
  match s.runState with
  | .idle => .fault .noStepWhileIdle
  | .halted => .fault .noStepWhileHalted
  | .running =>
    match fetchInstr m s with
    | .error t => .next (takeFault t s)
    | .ok i => exec i s

end Sys2Proof.Machine
end

