-- ==== Sys2Proof/Machine/Step.lean ====
section
/-! DEFINITION. The step of the CORE with the default opcode map (00_scope.md R8), and the placing of one instruction where
the next step fetches it. -/

namespace Sys2Proof.Machine

/-- One step with the default opcode map of 30_encoding.md R87 and R88 (log entry 4). -/
def step (s : State) : Host.Outcome State Fault Refusal := stepWith defaultOpcodes s

/-- `s` about to run the instruction of a table word. It stands for the host's `load_bytes` and `run`
(70_reset_and_hazards.md R244, R246; log entry 6). -/
def State.withFetchWord (s : State) (nbits w : Nat) : State := placeFetchWord s nbits w

end Sys2Proof.Machine
end

