-- ==== Sys2Proof/Machine/HostPort.lean ====
section
/-! DEFINITION. The CORE's side of the host-facing ports (70_reset_and_hazards.md R243): construct, load, run and inspect. They
are operations of the host on a state, not steps. -/

namespace Sys2Proof.Machine

/-- `construct(C)` (70_reset_and_hazards.md R240) for a capacity the spec allows, `C >= 1` (00_scope.md R8); none for 0
(log entry 13). -/
def hostConstruct (capacity : Nat) : Option State :=
  if 1 ≤ capacity then some (State.construct capacity) else none

/-- Why `load_bytes` fails. -/
inductive LoadError where
  /-- The range does not fit; the value is the first address that does not exist (70_reset_and_hazards.md R244). -/
  | outOfBounds (value : Nat)
  /-- The CORE is not Idle (R243 allows the load in Idle only; log entry 8). -/
  | notIdle
  deriving DecidableEq, Repr

/-- Bytes stored at increasing addresses from `addr`. -/
def Memory.storeBytes (addr : Nat) : List Byte → Memory → Memory
  | [], m => m
  | b :: bs, m => Memory.storeBytes (addr + 1) bs (m.set addr b)

/-- `load_bytes(start_addr, bytes)` (70_reset_and_hazards.md R244): the whole range is checked before anything is written. Its
answer `Ok(program_end)` is the `programEnd` of the state it gives. -/
def loadBytes (start : Nat) (bytes : List Byte) (s : State) : Except LoadError State :=
  if s.runState ≠ .idle then .error .notIdle
  else if 0 < bytes.length ∧ s.mem.capacity ≤ start + bytes.length - 1 then
    .error (.outOfBounds (if start < s.mem.capacity then s.mem.capacity else start))
  else if bytes.length = 0 ∧ s.mem.capacity < start then .error (.outOfBounds start)
  else .ok { s with mem := Memory.storeBytes start bytes s.mem, programEnd := start + bytes.length }

/-- The state `run(start_ip)` starts its loop from (70_reset_and_hazards.md R246), or none on a CORE that is not Idle. Any
`start_ip` is accepted. -/
def startRun (startIp : Nat) (s : State) : Option State :=
  if s.runState = .idle then some { s with pc := startIp, runState := .running } else none

/-- What the host sees of `run` under a bound on the number of steps (70_reset_and_hazards.md R247, R249). -/
inductive RunResult where
  /-- `Ok`: the CORE executed HLT. -/
  | ok (final : State)
  /-- `Err(fault record)`. -/
  | err (record : FaultRecord) (final : State)
  /-- `Err(NotIdle)`: nothing changed. -/
  | notIdle
  /-- The bound was reached with the CORE still Running: not an outcome of the CORE (93_implementation_defined.md U6). -/
  | outOfFuel (reached : State)
  /-- The model has no step from a Running state: no state gives this, since a Running CORE always has a next state. -/
  | noStep (reached : State)
  deriving DecidableEq, Repr

/-- The result of a loop that has ended in a halted state (70_reset_and_hazards.md R247). -/
def haltedResult (s : State) : RunResult :=
  match s.fault with
  | none => .ok s
  | some record => .err record s

/-- The run loop (40_dispatch.md R108): steps while Running, at most `fuel` of them. -/
def runLoop (m : OpcodeMap) : Nat → State → RunResult
  | 0, s => if s.runState = .running then .outOfFuel s else haltedResult s
  | fuel + 1, s =>
    if s.runState = .running then
      match stepWith m s with
      | .next t => runLoop m fuel t
      | .fault _ => .noStep s
      | .refused _ => .noStep s
    else haltedResult s

/-- `run(start_ip)` (70_reset_and_hazards.md R246) under a bound on the number of steps. -/
def hostRun (m : OpcodeMap) (fuel startIp : Nat) (s : State) : RunResult :=
  match startRun startIp s with
  | none => .notIdle
  | some t => runLoop m fuel t

/-- Inspection of the whole state, allowed in Idle and Halted (70_reset_and_hazards.md R243). -/
def hostInspect (s : State) : Option State :=
  if s.runState = .running then none else some s

end Sys2Proof.Machine
end

