-- ==== Sys2Proof/Safety.lean ====
section
/-! DEFINITION. The terms claims are stated in: the invariants of the CORE (10_state.md R40 and the bounds of R27, R29, R33),
the state a fault leaves (60_exceptions.md R220), and runs of several steps. -/

namespace Sys2Proof.Machine

/-- The bound on `pc` after a step (10_state.md R27). The host may start a run anywhere, so it is kept apart from `Inv`. -/
abbrev State.pcInRange (s : State) : Prop := s.pc ≤ max s.mem.capacity 257

/-- The invariant of a CORE: of every state a run reaches from construction, whatever the host loads and starts. -/
structure State.Inv (s : State) : Prop where
  /-- The constraint on the capacity (00_scope.md R8). -/
  capacity_pos : 1 ≤ s.mem.capacity
  /-- Memory is in its canonical form. -/
  mem_wf : s.mem.wf
  /-- `program_end` is `0 .. C` (10_state.md R36). -/
  programEnd_le : s.programEnd ≤ s.mem.capacity
  /-- `stack_depth` is at most `max(0, C - 2 - program_end)` (10_state.md R29; subtraction of naturals stops at 0). -/
  depth_le : s.stackDepth ≤ s.mem.capacity - 2 - s.programEnd
  /-- The stack is empty before the run (10_state.md R29, R32). -/
  idle_empty : s.runState = .idle → s.stackDepth = 0
  /-- A fault is recorded only with the halt (10_state.md R33). -/
  fault_halted : s.fault ≠ none → s.runState = .halted
  /-- The offending value is non-negative, and no step records UnsupportedOperation (60_exceptions.md R221, 44_alu.md
  R191). -/
  fault_record : ∀ record, s.fault = some record → 0 ≤ record.value ∧ record.kind ≠ .unsupportedOperation

/-- The state after fault entry from `s`, written out (60_exceptions.md R220), with the opcode byte of the event. -/
def State.afterFault (s : State) (opcodeByte : Option Byte) (kind : FaultKind) (value : Int) : State :=
  { s with
    fault := some { kind := kind, ip := s.pc, value := value }
    runState := .halted
    events := s.events ++ [.fault s.pc opcodeByte s.regs kind value] }

/-- A run of steps from one state to another in which the stack never falls below `d` items: what 43_control_transfer.md
R172 asks of a callee between its entry and its RET. -/
inductive StaysAbove (m : OpcodeMap) (d : Nat) : State → State → Prop where
  | done {s : State} : d ≤ s.stackDepth → StaysAbove m d s s
  | step {s t u : State} : d ≤ s.stackDepth → stepWith m s = .next t → StaysAbove m d t u → StaysAbove m d s u

/-- Any number of steps. -/
inductive Steps (m : OpcodeMap) : State → State → Prop where
  | refl {s : State} : Steps m s s
  | step {s t u : State} : stepWith m s = .next t → Steps m t u → Steps m s u

/-- Exactly `n` steps. -/
inductive StepsIn (m : OpcodeMap) : Nat → State → State → Prop where
  | refl {s : State} : StepsIn m 0 s s
  | step {n : Nat} {s t u : State} : stepWith m s = .next t → StepsIn m n t u → StepsIn m (n + 1) s u

/-- The one address an instruction that completes in `s` stores to, and the byte it stores there: PUSH its register and CALL
its own address at `SP`, POP and RET the zero at `SP + 1`; the others store nothing (20_memory.md R62). -/
def storeOf (s : State) : Instr → Option (Int × Byte)
  | .hlt => none
  | .ldi _ _ => none
  | .prn _ => none
  | .push r => s.regs[r]?.map (fun v => (s.sp, v))
  | .pop _ => some (s.sp + 1, 0)
  | .call _ => some (s.sp, BitVec.ofNat 8 s.pc)
  | .ret => some (s.sp + 1, 0)
  | .add _ _ => none
  | .sub _ _ => none
  | .mul _ _ => none
  | .div _ _ => none

/-- A run of steps that complete, with the stores they make, in order. -/
inductive StepsStoring (m : OpcodeMap) : List (Int × Byte) → State → State → Prop where
  | refl {s : State} : StepsStoring m [] s s
  | step {stores : List (Int × Byte)} {i : Instr} {s t u : State} : fetchInstr m s = .ok i → stepWith m s = .next t →
      t.fault = none → StepsStoring m stores t u → StepsStoring m ((storeOf s i).toList ++ stores) s u

/-- The byte that an address holds after a list of stores into a memory: that of the last store to it, else what the memory
held. -/
def Memory.readAfter (m : Memory) (stores : List (Int × Byte)) (addr : Int) : Except Trap Byte :=
  match stores.reverse.find? (fun w => w.1 = addr) with
  | some w => .ok w.2
  | none => m.read addr

/-- An event with one entry of its register snapshot replaced; its kind, `ip`, opcode byte and values stay. -/
def Event.withSnapshotEntry (k : Fin 8) (v : Byte) : Event → Event
  | .print ip op snapshot value => .print ip op (snapshot.set k v) value
  | .fault ip op snapshot kind value => .fault ip op (snapshot.set k v) kind value

/-- Several pushes, the first of the list first. -/
def pushAll : List Byte → State → Except Trap State
  | [], s => .ok s
  | v :: vs, s =>
    match push v s with
    | .error t => .error t
    | .ok t => pushAll vs t

/-- Several pops: the values in the order they come off. -/
def popMany : Nat → State → Except Trap (List Byte × State)
  | 0, s => .ok ([], s)
  | n + 1, s =>
    match pop s with
    | .error t => .error t
    | .ok (v, t) =>
      match popMany n t with
      | .error t => .error t
      | .ok (vs, u) => .ok (v :: vs, u)

/-- A run ends safely when it ends by HLT: Halted with no fault record (70_reset_and_hazards.md R249 (a)). -/
abbrev State.haltedSafely (s : State) : Prop := s.runState = .halted ∧ s.fault = none

end Sys2Proof.Machine
end

