-- ==== Sys2Proof/Certificates/Slice0/Obligations.lean ====
section
/-! DEFINITION. The statements for the provers. Each docstring names the rule of spec/ it formalises. A memory access is
written with the model's own byte read, `Memory.read`, over integer addresses: it answers the byte inside `[0, C)` and
OutOfBounds elsewhere, so "every address reads as before" also says that the capacity is the same. The emitted events are
read from the model's own field `events` (log entry 1). Where an instruction is taken alone, by `exec`, the opcode byte of its
event is `s.opcodeByte`, the byte at `pc` (log entry 7); the statements about steps say which byte that is. -/

open Sys2Proof
open Sys2Proof.Machine

/-! ## Shapes shared by the statements -/

/-- Instruction `i` raises InvalidRegister for the operand `r` in every state (40_dispatch.md R104). -/
def raisesInvalidRegister (i : Instr) (r : Nat) : Prop :=
  ∀ s : State, exec i s = .next (s.afterFault s.opcodeByte .invalidRegister r)

/-- With opcode byte `op` at `pc` and at least one of its `n` operand bytes beyond memory, the step raises OutOfBounds with the
lowest missing address, which is the capacity itself (40_dispatch.md R103). -/
def raisesOnMissingOperand (op : Byte) (n : Nat) : Prop :=
  ∀ s : State, s.runState = .running → s.mem.read (s.pc : Int) = .ok op → s.mem.capacity ≤ s.pc + n →
    step s = .next (s.afterFault (some op) .outOfBounds s.mem.capacity)

/-- The register operands of an arithmetic instruction are checked first operand first (40_dispatch.md R104, R106). -/
def checksBothRegisters (make : Nat → Nat → Instr) : Prop :=
  ∀ a b : Nat, (8 ≤ a → raisesInvalidRegister (make a b) a) ∧ (a < 8 → 8 ≤ b → raisesInvalidRegister (make a b) b)

/-- `t` is `s` after `v` was stored at `addr` and nowhere else in memory. -/
def storedOnly (s t : State) (addr : Int) (v : Byte) : Prop :=
  t.mem.read addr = .ok v ∧ ∀ b : Int, b ≠ addr → t.mem.read b = s.mem.read b

/-- Every byte of memory reads the same in both states. -/
def sameMemory (s t : State) : Prop := ∀ a : Int, t.mem.read a = s.mem.read a

/-! ## Reset, memory, the stack manager -/

/-- 10_state.md R39: every component at construction, for any capacity. -/
def Obligations.ConstructionValues : Prop :=
  ∀ C : Nat,
    (∀ a : Nat, a < C → (State.construct C).mem.read (a : Int) = .ok 0) ∧
    (∀ a : Nat, C ≤ a → (State.construct C).mem.read (a : Int) = .error ⟨.outOfBounds, (a : Int)⟩) ∧
    (∀ k : Fin 8, (State.construct C).regs[k] = 0) ∧
    (State.construct C).pc = 0 ∧ (State.construct C).stackDepth = 0 ∧ (State.construct C).programEnd = 0 ∧
    (State.construct C).runState = .idle ∧ (State.construct C).fault = none

/-- 20_memory.md section 1 (its rules R50 and R51; the last sentence of R51 the spec marks as derived): inside `[0, C)` a read
answers and a write sets exactly that byte; outside, both fail with OutOfBounds and the address; and no push of the CORE's own
raises OutOfBounds. -/
def Obligations.MemoryReadAndWriteContract : Prop :=
  (∀ (m : Memory) (addr : Int) (v : Byte),
    (0 ≤ addr ∧ addr < m.capacity →
      m.read addr = .ok (m.byteAt addr.toNat) ∧
      ∃ m', m.write addr v = .ok m' ∧ m'.read addr = .ok v ∧ ∀ b : Int, b ≠ addr → m'.read b = m.read b) ∧
    (¬ (0 ≤ addr ∧ addr < m.capacity) →
      m.read addr = .error ⟨.outOfBounds, addr⟩ ∧ m.write addr v = .error ⟨.outOfBounds, addr⟩)) ∧
  ∀ (v : Byte) (s : State) (e : Trap), push v s = .error e → e.kind = .stackOverflow

/-- The model's memory form (log entry 17): two canonical memories that read the same at every address are the same data. -/
def Obligations.CanonicalMemoriesWithEqualReadsAreEqual : Prop :=
  ∀ m m' : Memory, m.wf → m'.wf → (∀ a : Int, m.read a = m'.read a) → m = m'

/-- 20_memory.md R60: the guard, the slot written, the increment, nothing else. -/
def Obligations.PushContract : Prop :=
  ∀ (v : Byte) (s : State),
    let addr : Int := ((s.mem.capacity : Int) - 1) - s.stackDepth
    (addr - 1 ≤ s.programEnd → push v s = .error ⟨.stackOverflow, addr⟩) ∧
    (¬ addr - 1 ≤ s.programEnd → ∃ t, push v s = .ok t ∧ storedOnly s t addr v ∧
      t = { s with mem := t.mem, stackDepth := s.stackDepth + 1 })

/-- 20_memory.md R61: underflow on an empty stack; else the decrement, the value of the now-current top slot, and that slot
zeroed. (A depth above the capacity, which no run reaches, is PopBeyondTheCapacity.) -/
def Obligations.PopContract : Prop :=
  ∀ s : State,
    let addr : Int := ((s.mem.capacity : Int) - 1) - ((s.stackDepth : Int) - 1)
    (s.stackDepth = 0 → pop s = .error ⟨.stackUnderflow, 0⟩) ∧
    (0 < s.stackDepth → s.stackDepth ≤ s.mem.capacity → ∃ v t, pop s = .ok (v, t) ∧ s.mem.read addr = .ok v ∧
      storedOnly s t addr 0 ∧ t = { s with mem := t.mem, stackDepth := s.stackDepth - 1 })

/-- 20_memory.md section 4 (its rule R59, which the spec marks as derived from R60 and R61): the stack is LIFO, over any number of items, and its capacity is `max(0, C - 2 - program_end)` items.
The pushes and pops leave everything but memory as it was, and in memory only the slots used. -/
def Obligations.StackIsLastInFirstOut : Prop :=
  ∀ (vs : List Byte) (s : State),
    ((∃ t, pushAll vs s = .ok t) ↔ vs = [] ∨ s.stackDepth + vs.length ≤ s.mem.capacity - 2 - s.programEnd) ∧
    ∀ t, pushAll vs s = .ok t → ∃ u, popMany vs.length t = .ok (vs.reverse, u) ∧ u = { s with mem := u.mem } ∧
      ∀ a : Int, (a ≤ s.sp - vs.length ∨ s.sp < a) → u.mem.read a = s.mem.read a

/-! ## Encoding and decoding -/

/-- 30_encoding.md R80 to R88, for every opcode map R88 allows: decoding the encoding of a well-formed instruction, whatever
follows it, gives the instruction and what follows. -/
def Obligations.DecodeOfEncodeIsIdentity : Prop :=
  ∀ (m : OpcodeMap) (i : Instr) (rest : List Byte), m.wellFormed → i.wellFormed →
    decodeWith m (encodeWith m i ++ rest) = .ok (i, rest)

/-- 30_encoding.md R81 and R82: whatever decodes is well-formed, and its encoding is the bytes it was read from. -/
def Obligations.EncodeOfDecodeIsIdentity : Prop :=
  ∀ (m : OpcodeMap) (bytes rest : List Byte) (i : Instr), decodeWith m bytes = .ok (i, rest) →
    i.wellFormed ∧ encodeWith m i ++ rest = bytes

/-- 30_encoding.md R81, R87, R88: one word of every format, written out from the tables, and the table word of LDI R0,8. -/
def Obligations.WrittenOutWordsDecode : Prop :=
  decode [0b10000010, 0b00000000, 0b00001000, 0b01000111] = .ok (.ldi 0 8, [0b01000111]) ∧
  decode [0b01000111, 0b00000000] = .ok (.prn 0, []) ∧
  decode [0b00000001] = .ok (.hlt, []) ∧
  decode [0b10100000, 0b00000111, 0b11111111] = .ok (.add 7 255, []) ∧
  decodeTableWord 24 0x080082 = some (.ldi 0 8)

/-- 30_encoding.md section 2 (its rules R83, which the spec marks as derived, and R84): the width of each instruction, and the length and handler found from the opcode byte alone. -/
def Obligations.LengthComesFromTheOpcode : Prop :=
  (∀ (m : OpcodeMap) (i : Instr), (encodeWith m i).length =
    match i with
    | .hlt => 1
    | .ret => 1
    | .prn _ => 2
    | .push _ => 2
    | .pop _ => 2
    | .call _ => 2
    | .ldi _ _ => 3
    | .add _ _ => 3
    | .sub _ _ => 3
    | .mul _ _ => 3
    | .div _ _ => 3) ∧
  ∀ (m : OpcodeMap) (op : Byte) (bs bs' rest rest' : List Byte) (i i' : Instr),
    decodeWith m (op :: bs) = .ok (i, rest) → decodeWith m (op :: bs') = .ok (i', rest') →
    i.mnemonic = i'.mnemonic ∧ bs.length + rest'.length = bs'.length + rest.length ∧
    (encodeWith m i).length = (encodeWith m i').length

/-- 30_encoding.md R89: every byte outside the eleven is illegal, there are 245 of them, and a step that fetches one raises
IllegalInstruction with the byte; the eleven are not illegal. -/
def Obligations.OtherOpcodesAreIllegal : Prop :=
  let eleven : List Byte := [0x01, 0x11, 0x45, 0x46, 0x47, 0x50, 0x82, 0xA0, 0xA1, 0xA2, 0xA3]
  ((List.range 256).filter (fun n => BitVec.ofNat 8 n ∉ eleven)).length = 245 ∧
  (∀ op : Byte, op ∉ eleven →
    (∀ rest, decode (op :: rest) = .error (.illegalOpcode op)) ∧
    ∀ s : State, s.runState = .running → s.mem.read (s.pc : Int) = .ok op →
      step s = .next (s.afterFault (some op) .illegalInstruction op.toNat)) ∧
  ∀ op : Byte, op ∈ eleven → ∀ rest, decode (op :: rest) ≠ .error (.illegalOpcode op)

/-! ## The step -/

/-- 40_dispatch.md R100: a step runs the decoded instruction. Where the bytes at `pc` decode to `i`, the step of a Running CORE
is `exec i` of the same state (nothing is added around it), for every opcode map; `step` is the step with the default map. -/
def Obligations.StepRunsTheDecodedInstruction : Prop :=
  (∀ (m : OpcodeMap) (s : State) (bytes rest : List Byte) (i : Instr), s.runState = .running →
    (∀ (k : Nat) (h : k < bytes.length), s.mem.read ((s.pc : Int) + k) = .ok bytes[k]) →
    decodeWith m bytes = .ok (i, rest) → i.wellFormed ∧ stepWith m s = exec i s) ∧
  ∀ s : State, step s = stepWith defaultOpcodes s

/-- 40_dispatch.md R101: a fetch at or beyond the capacity raises OutOfBounds with `pc`, and the event's opcode byte is
absent. -/
def Obligations.FetchBeyondMemoryFaults : Prop :=
  ∀ (m : OpcodeMap) (s : State), s.runState = .running → s.mem.capacity ≤ s.pc →
    stepWith m s = .next (s.afterFault none .outOfBounds s.pc)

/-- 40_dispatch.md R102 and R103, for every opcode map: an opcode byte with no handler raises IllegalInstruction before any
operand byte is looked for; a missing operand byte raises OutOfBounds with the lowest missing address. -/
def Obligations.DecodeAndOperandFaults : Prop :=
  ∀ (m : OpcodeMap) (s : State) (op : Byte), s.runState = .running → s.mem.read (s.pc : Int) = .ok op →
    (m.lookup op = none → stepWith m s = .next (s.afterFault (some op) .illegalInstruction op.toNat)) ∧
    ∀ h, m.lookup op = some h → s.mem.capacity ≤ s.pc + h.operandCount →
      (∀ a : Nat, s.pc < a → (s.mem.read (a : Int) = .error ⟨.outOfBounds, (a : Int)⟩ ↔ s.mem.capacity ≤ a)) ∧
      stepWith m s = .next (s.afterFault (some op) .outOfBounds s.mem.capacity)

/-- 40_dispatch.md R110: there is no step in Idle or Halted, and no host operation changes a Halted CORE. -/
def Obligations.NoStepUnlessRunning : Prop :=
  (∀ (m : OpcodeMap) (s t : State), s.runState ≠ .running → stepWith m s ≠ .next t) ∧
  ∀ (m : OpcodeMap) (s : State), s.runState = .halted →
    (∀ start bytes t, loadBytes start bytes s ≠ .ok t) ∧
    (∀ startIp fuel, startRun startIp s = none ∧ hostRun m fuel startIp s = .notIdle) ∧
    hostInspect s = some s

/-- A Running CORE always has a next state, and it is not Idle: no instruction and no data ends a run outside the spec's own
halts (40_dispatch.md sections 1 and 3, 60_exceptions.md section 2). -/
def Obligations.RunningCoreAlwaysSteps : Prop :=
  ∀ (m : OpcodeMap) (s : State), s.runState = .running → ∃ t, stepWith m s = .next t ∧ t.runState ≠ .idle

/-- The host's check of the model: the instruction of a table word, placed at `pc` with room for it, is what the next step
runs (log entry 6). -/
def Obligations.PlacedWordRunsNext : Prop :=
  ∀ (s : State) (nbits w : Nat) (i : Instr), s.pc + 3 ≤ s.mem.capacity → decodeTableWord nbits w = some i →
    step (s.withFetchWord nbits w) = exec i (s.withFetchWord nbits w)

/-! ## HLT, LDI, PRN -/

/-- 41_basic.md R130. -/
def Obligations.HltRule : Prop :=
  encode .hlt = [0x01] ∧
  (∀ s : State, exec .hlt s = .next { s with runState := .halted }) ∧
  ∀ s : State, s.runState = .running → s.mem.read (s.pc : Int) = .ok 0x01 → step s = .next { s with runState := .halted }

/-- 41_basic.md R131. -/
def Obligations.LdiRule : Prop :=
  (∀ (r : Nat) (imm8 : Byte), encode (.ldi r imm8) = [0x82, BitVec.ofNat 8 r, imm8]) ∧
  (∀ (r : Nat) (_ : r < 8) (imm8 : Byte) (s : State),
    exec (.ldi r imm8) s = .next { s with regs := s.regs.set r imm8, pc := s.pc + 3 }) ∧
  (∀ (r : Nat) (imm8 : Byte), 8 ≤ r → raisesInvalidRegister (.ldi r imm8) r) ∧
  raisesOnMissingOperand 0x82 2

/-- 41_basic.md R132: the event carries the PRN's address, the opcode byte at it, all registers and `x[r]`. -/
def Obligations.PrnRule : Prop :=
  (∀ r : Nat, encode (.prn r) = [0x47, BitVec.ofNat 8 r]) ∧
  (∀ (r : Nat) (_ : r < 8) (s : State), exec (.prn r) s = .next { s with
    pc := s.pc + 2
    events := s.events ++ [.print s.pc s.opcodeByte s.regs s.regs[r]] }) ∧
  (∀ (s : State) (op : Byte), s.mem.read (s.pc : Int) = .ok op → s.opcodeByte = some op) ∧
  (∀ r : Nat, 8 ≤ r → raisesInvalidRegister (.prn r) r) ∧
  raisesOnMissingOperand 0x47 1

/-! ## PUSH, POP -/

/-- 42_stack.md R150: the byte goes to `SP = TOP - depth` and nowhere else. -/
def Obligations.PushRule : Prop :=
  (∀ r : Nat, encode (.push r) = [0x45, BitVec.ofNat 8 r]) ∧
  (∀ (r : Nat) (_ : r < 8) (s : State), ¬ s.sp - 1 ≤ s.programEnd → ∃ t, exec (.push r) s = .next t ∧
    storedOnly s t s.sp s.regs[r] ∧ t = { s with mem := t.mem, stackDepth := s.stackDepth + 1, pc := s.pc + 2 }) ∧
  (∀ (r : Nat) (s : State), r < 8 → s.sp - 1 ≤ s.programEnd →
    exec (.push r) s = .next (s.afterFault s.opcodeByte .stackOverflow s.sp)) ∧
  (∀ r : Nat, 8 ≤ r → raisesInvalidRegister (.push r) r) ∧
  raisesOnMissingOperand 0x45 1

/-- 42_stack.md R151: the top item is at `SP + 1`; its slot is zeroed. (A depth above the capacity, which no run reaches, is
PopBeyondTheCapacity.) -/
def Obligations.PopRule : Prop :=
  (∀ r : Nat, encode (.pop r) = [0x46, BitVec.ofNat 8 r]) ∧
  (∀ (r : Nat) (_ : r < 8) (s : State), 0 < s.stackDepth → s.stackDepth ≤ s.mem.capacity →
    ∃ v t, exec (.pop r) s = .next t ∧ s.mem.read (s.sp + 1) = .ok v ∧ storedOnly s t (s.sp + 1) 0 ∧
      t = { s with mem := t.mem, regs := s.regs.set r v, stackDepth := s.stackDepth - 1, pc := s.pc + 2 }) ∧
  (∀ (r : Nat) (s : State), r < 8 → s.stackDepth = 0 →
    exec (.pop r) s = .next (s.afterFault s.opcodeByte .stackUnderflow 0)) ∧
  (∀ r : Nat, 8 ≤ r → raisesInvalidRegister (.pop r) r) ∧
  raisesOnMissingOperand 0x46 1

/-- "PUSH r followed immediately by POP r2" (42_stack.md, corner cases of POP): the value moves, the depth returns, the slot
holds 0 again, nothing else changes. -/
def Obligations.PushThenPopMovesTheValue : Prop :=
  ∀ (r r2 : Nat) (_ : r < 8) (_ : r2 < 8) (s : State), ¬ s.sp - 1 ≤ s.programEnd →
    ∃ t u, exec (.push r) s = .next t ∧ exec (.pop r2) t = .next u ∧ storedOnly s u s.sp 0 ∧
      u = { s with mem := u.mem, regs := s.regs.set r2 s.regs[r], pc := s.pc + 4 }

/-! ## CALL, RET -/

/-- 43_control_transfer.md R170: the CALL's own address goes to `SP`, and `pc` becomes `x[r]`, which is not checked. -/
def Obligations.CallRule : Prop :=
  (∀ r : Nat, encode (.call r) = [0x50, BitVec.ofNat 8 r]) ∧
  (∀ (r : Nat) (_ : r < 8) (s : State), s.pc ≤ 255 → ¬ s.sp - 1 ≤ s.programEnd → ∃ t v, exec (.call r) s = .next t ∧
    v.toNat = s.pc ∧ storedOnly s t s.sp v ∧
    t = { s with mem := t.mem, stackDepth := s.stackDepth + 1, pc := s.regs[r].toNat }) ∧
  (∀ (r : Nat) (s : State), r < 8 → 255 < s.pc →
    exec (.call r) s = .next (s.afterFault s.opcodeByte .returnAddressRange s.pc)) ∧
  (∀ (r : Nat) (s : State), r < 8 → s.pc ≤ 255 → s.sp - 1 ≤ s.programEnd →
    exec (.call r) s = .next (s.afterFault s.opcodeByte .stackOverflow s.sp)) ∧
  (∀ r : Nat, 8 ≤ r → raisesInvalidRegister (.call r) r) ∧
  raisesOnMissingOperand 0x50 1

/-- 43_control_transfer.md R171: `pc` becomes the popped byte plus 2, not reduced; RET reads no operand byte. (A depth
above the capacity, which no run reaches, is PopBeyondTheCapacity.) -/
def Obligations.RetRule : Prop :=
  encode .ret = [0x11] ∧
  (∀ s : State, 0 < s.stackDepth → s.stackDepth ≤ s.mem.capacity →
    ∃ v t, exec .ret s = .next t ∧ s.mem.read (s.sp + 1) = .ok v ∧ storedOnly s t (s.sp + 1) 0 ∧
      t = { s with mem := t.mem, stackDepth := s.stackDepth - 1, pc := v.toNat + 2 }) ∧
  (∀ s : State, s.runState = .running → s.mem.read (s.pc : Int) = .ok 0x11 → step s = exec .ret s) ∧
  ∀ s : State, s.stackDepth = 0 → exec .ret s = .next (s.afterFault s.opcodeByte .stackUnderflow 0)

/-- The model's choice in states no run reaches (log entry 5; the invariant excludes them): with more items than bytes, the read
of the top slot, `SP + 1`, is out of bounds, so `pop`, POP and RET raise OutOfBounds with that address. -/
def Obligations.PopBeyondTheCapacity : Prop :=
  ∀ s : State, s.mem.capacity < s.stackDepth →
    pop s = .error ⟨.outOfBounds, s.sp + 1⟩ ∧
    (∀ r : Nat, r < 8 → exec (.pop r) s = .next (s.afterFault s.opcodeByte .outOfBounds (s.sp + 1))) ∧
    exec .ret s = .next (s.afterFault s.opcodeByte .outOfBounds (s.sp + 1))

/-- 43_control_transfer.md, call/return pairing (its rule R172, which the spec marks as derived from R170 and R171): a CALL, then any run of steps that never lets the stack fall below its depth at entry and
ends at that depth, then a RET, resumes at the address after the 2-byte CALL with the depth from before it. The callee is any
code at any target, nested calls included. -/
def Obligations.ReturnResumesAfterTheCall : Prop :=
  ∀ (m : OpcodeMap) (r : Nat) (s entry last : State), s.fault = none → exec (.call r) s = .next entry →
    entry.fault = none → StaysAbove m entry.stackDepth entry last → last.stackDepth = entry.stackDepth →
    ∃ t, exec .ret last = .next t ∧ t.fault = last.fault ∧ t.pc = s.pc + 2 ∧ t.stackDepth = s.stackDepth

/-! ## The ALU and the arithmetic instructions -/

/-- 44_alu.md R190: the four operations on unsigned bytes, modulo 256; a zero divisor and every other tag are errors. -/
def Obligations.AluApply : Prop :=
  ∀ a b : Byte,
    (∃ v, aluApply 0 a b = .ok v ∧ v.toNat = (a.toNat + b.toNat) % 256) ∧
    (∃ v, aluApply 1 a b = .ok v ∧ (v.toNat : Int) = ((a.toNat : Int) - b.toNat) % 256) ∧
    (∃ v, aluApply 2 a b = .ok v ∧ v.toNat = (a.toNat * b.toNat) % 256) ∧
    (b = 0 → aluApply 3 a b = .error .divisionByZero) ∧
    (b ≠ 0 → ∃ v, aluApply 3 a b = .ok v ∧ v.toNat = a.toNat / b.toNat) ∧
    ∀ op : BitVec 8, 4 ≤ op.toNat → aluApply op a b = .error .unsupportedOperation

/-- 44_alu.md R191: the tags, and that no step raises UnsupportedOperation. -/
def Obligations.UnsupportedOperationNeverFromAStep : Prop :=
  (tagAdd = 0 ∧ tagSub = 1 ∧ tagMul = 2 ∧ tagDiv = 3) ∧
  (∀ (op : BitVec 8) (a b : Byte), 4 ≤ op.toNat ↔ aluApply op a b = .error .unsupportedOperation) ∧
  FaultKind.unsupportedOperation.code = 6 ∧
  ∀ (m : OpcodeMap) (s t : State) (record : FaultRecord), s.fault = none → stepWith m s = .next t →
    t.fault = some record → record.kind ≠ .unsupportedOperation

/-- 44_alu.md R193. -/
def Obligations.AddRule : Prop :=
  (∀ a b : Nat, encode (.add a b) = [0xA0, BitVec.ofNat 8 a, BitVec.ofNat 8 b]) ∧
  (∀ (a b : Nat) (_ : a < 8) (_ : b < 8) (s : State), ∃ v : Byte,
    v.toNat = (s.regs[a].toNat + s.regs[b].toNat) % 256 ∧
    exec (.add a b) s = .next { s with regs := s.regs.set a v, pc := s.pc + 3 }) ∧
  checksBothRegisters .add ∧ raisesOnMissingOperand 0xA0 2

/-- 44_alu.md R194. -/
def Obligations.SubRule : Prop :=
  (∀ a b : Nat, encode (.sub a b) = [0xA1, BitVec.ofNat 8 a, BitVec.ofNat 8 b]) ∧
  (∀ (a b : Nat) (_ : a < 8) (_ : b < 8) (s : State), ∃ v : Byte,
    (v.toNat : Int) = ((s.regs[a].toNat : Int) - s.regs[b].toNat) % 256 ∧
    exec (.sub a b) s = .next { s with regs := s.regs.set a v, pc := s.pc + 3 }) ∧
  checksBothRegisters .sub ∧ raisesOnMissingOperand 0xA1 2

/-- 44_alu.md R195. -/
def Obligations.MulRule : Prop :=
  (∀ a b : Nat, encode (.mul a b) = [0xA2, BitVec.ofNat 8 a, BitVec.ofNat 8 b]) ∧
  (∀ (a b : Nat) (_ : a < 8) (_ : b < 8) (s : State), ∃ v : Byte,
    v.toNat = (s.regs[a].toNat * s.regs[b].toNat) % 256 ∧
    exec (.mul a b) s = .next { s with regs := s.regs.set a v, pc := s.pc + 3 }) ∧
  checksBothRegisters .mul ∧ raisesOnMissingOperand 0xA2 2

/-- 44_alu.md R196: the floor quotient, or DivisionByZero with the divisor's register index. -/
def Obligations.DivRule : Prop :=
  (∀ a b : Nat, encode (.div a b) = [0xA3, BitVec.ofNat 8 a, BitVec.ofNat 8 b]) ∧
  (∀ (a b : Nat) (_ : a < 8) (_ : b < 8) (s : State), s.regs[b] ≠ 0 → ∃ v : Byte,
    v.toNat = s.regs[a].toNat / s.regs[b].toNat ∧
    exec (.div a b) s = .next { s with regs := s.regs.set a v, pc := s.pc + 3 }) ∧
  (∀ (a b : Nat) (_ : a < 8) (_ : b < 8) (s : State), s.regs[b] = 0 →
    exec (.div a b) s = .next (s.afterFault s.opcodeByte .divisionByZero b)) ∧
  checksBothRegisters .div ∧ raisesOnMissingOperand 0xA3 2

/-! ## Frames -/

/-- Frame of the forms that store nothing (HLT, LDI, PRN, ADD, SUB, MUL, DIV), whether they complete or fault: every byte of
memory, the depth and `program_end` are unchanged, and every register but the destination. -/
def Obligations.FrameOfTheInstructionsThatStoreNothing : Prop :=
  ∀ (i : Instr) (s t : State), i.mnemonic ∈ [.hlt, .ldi, .prn, .add, .sub, .mul, .div] → exec i s = .next t →
    sameMemory s t ∧ t.stackDepth = s.stackDepth ∧ t.programEnd = s.programEnd ∧
    (i.mnemonic ∈ [.hlt, .prn] → t.regs = s.regs) ∧
    ∀ k : Fin 8, i.registerOperands.head? ≠ some k.val → t.regs[k] = s.regs[k]

/-- Frame of the forms that store (PUSH and CALL at `SP`, POP and RET at the now-current top slot `TOP - (depth - 1)`), whether
they complete or fault: every other byte of memory reads as before, `program_end` is unchanged, and every register but POP's
destination. -/
def Obligations.FrameOfTheInstructionsThatStore : Prop :=
  ∀ (i : Instr) (s t : State), exec i s = .next t →
    (i.mnemonic ∈ [.push, .call] → ∀ a : Int, a ≠ s.sp → t.mem.read a = s.mem.read a) ∧
    (i.mnemonic ∈ [.pop, .ret] →
      ∀ a : Int, a ≠ State.sp { s with stackDepth := s.stackDepth - 1 } → t.mem.read a = s.mem.read a) ∧
    (i.mnemonic ∈ [.push, .call, .ret] → t.regs = s.regs) ∧
    (i.mnemonic ∈ [.push, .call, .pop, .ret] → t.programEnd = s.programEnd) ∧
    (∀ r : Nat, i = .pop r → ∀ k : Fin 8, k.val ≠ r → t.regs[k] = s.regs[k])

/-- The registers an instruction reads (the table of 10_state.md section 3). -/
def registersRead : Instr → List Nat
  | .hlt => []
  | .ldi _ _ => []
  | .prn r => [r]
  | .push r => [r]
  | .pop _ => []
  | .call r => [r]
  | .ret => []
  | .add a b => [a, b]
  | .sub a b => [a, b]
  | .mul a b => [a, b]
  | .div a b => [a, b]

/-- An instruction depends on no register but those the table of 10_state.md section 3 says it reads. With another value `v` in
any other register `k` it does the same in every field of the state and emits the same events, value for value, but that the
register snapshots of the new events hold `v` at `k`. After it, register `k` holds `v` and the others what they held; a
destination that is not read (LDI, POP) ends with the same value, unless the instruction faults. -/
def Obligations.OnlyTheRegistersReadMatter : Prop :=
  ∀ (i : Instr) (s t : State) (k : Fin 8) (v : Byte), k.val ∉ registersRead i → exec i s = .next t →
    ∃ u new, exec i { s with regs := s.regs.set k v } = .next u ∧
      u = { t with regs := u.regs, events := u.events } ∧
      t.events = s.events ++ new ∧ u.events = s.events ++ new.map (Event.withSnapshotEntry k v) ∧
      (∀ j : Fin 8, j ≠ k → u.regs[j] = t.regs[j]) ∧
      (i.registerOperands.head? = some k.val → t.fault = none → u.regs = t.regs) ∧
      (i.registerOperands.head? = some k.val → s.fault = none → t.fault ≠ none → u.regs = t.regs.set k v) ∧
      (i.registerOperands.head? ≠ some k.val → u.regs = t.regs.set k v)

/-- 10_state.md R28: the new `pc` of every instruction, and `pc` unchanged by a faulting step. -/
def Obligations.ProgramCounterTable : Prop :=
  ∀ (m : OpcodeMap) (s t : State), s.fault = none → stepWith m s = .next t →
    (t.fault ≠ none → t.pc = s.pc) ∧
    ∀ i, fetchInstr m s = .ok i → t.fault = none →
      match i with
      | .hlt => t.pc = s.pc
      | .ldi _ _ => t.pc = s.pc + 3
      | .prn _ => t.pc = s.pc + 2
      | .push _ => t.pc = s.pc + 2
      | .pop _ => t.pc = s.pc + 2
      | .call r => ∃ _ : r < 8, t.pc = s.regs[r].toNat
      | .ret => ∃ v, s.mem.read (s.sp + 1) = .ok v ∧ t.pc = v.toNat + 2
      | .add _ _ => t.pc = s.pc + 3
      | .sub _ _ => t.pc = s.pc + 3
      | .mul _ _ => t.pc = s.pc + 3
      | .div _ _ => t.pc = s.pc + 3

/-- 10_state.md section 5 (its rule R29, which the spec marks as derived from R60 and R61): the depth goes up by 1 with PUSH and CALL, down by 1 with POP and RET, and no other instruction and no
fault changes it; it is 0 at construction; a pop at depth 0 underflows; and in every state a run reaches it is at most
`max(0, C - 2 - program_end)` (subtraction of naturals stops at 0). -/
def Obligations.StackDepthChanges : Prop :=
  (∀ C : Nat, (State.construct C).stackDepth = 0) ∧
  (∀ s : State, s.stackDepth = 0 → pop s = .error ⟨.stackUnderflow, 0⟩) ∧
  (∀ (m : OpcodeMap) (s t : State), s.Inv → Steps m s t → t.stackDepth ≤ t.mem.capacity - 2 - t.programEnd) ∧
  ∀ (i : Instr) (s t : State), s.fault = none → exec i s = .next t →
    (t.fault ≠ none → t.stackDepth = s.stackDepth) ∧
    (t.fault = none →
      (i.mnemonic ∈ [.push, .call] → t.stackDepth = s.stackDepth + 1) ∧
      (i.mnemonic ∈ [.pop, .ret] → t.stackDepth + 1 = s.stackDepth) ∧
      (i.mnemonic ∉ [.push, .call, .pop, .ret] → t.stackDepth = s.stackDepth))

/-! ## Faults, the run state, the observer -/

/-- 40_dispatch.md R107 and 60_exceptions.md R220: a faulting step is fault entry and nothing else. Registers, memory, depth and
`pc` are those before the step; the record holds the kind, `pc` and the value; the event holds the byte fetched at `pc`, absent
when the fetch itself faulted. -/
def Obligations.FaultsArePrecise : Prop :=
  ∀ (m : OpcodeMap) (s t : State), s.fault = none → stepWith m s = .next t → t.fault ≠ none →
    ∃ kind value op, t = s.afterFault op kind value ∧
      (∀ b, s.mem.read (s.pc : Int) = .ok b → op = some b) ∧ (s.mem.capacity ≤ s.pc → op = none)

/-- 10_state.md R32: the transitions of the run state: Idle to Running by `run`, Running to Running, Running to Halted exactly by
HLT or a fault, and none out of Halted. -/
def Obligations.RunStateTransitions : Prop :=
  (∀ (startIp : Nat) (s : State), s.runState = .idle → ∃ t, startRun startIp s = some t ∧ t.runState = .running) ∧
  (∀ (m : OpcodeMap) (s t : State), s.fault = none → stepWith m s = .next t →
    s.runState = .running ∧ (t.runState = .running ∨ t.runState = .halted) ∧
    (t.runState = .halted ↔ fetchInstr m s = .ok .hlt ∨ t.fault ≠ none)) ∧
  ∀ (m : OpcodeMap) (s t : State), s.runState = .halted → stepWith m s ≠ .next t

/-- 10_state.md R33: no record at construction; a fault sets it in the step that halts, to the kind, the step's `pc` and the
value; once it is set, no run of steps changes or clears it, and no step follows at all; the host's load and run leave it. A
Halted CORE with no record stopped by HLT, one with a record by that fault. -/
def Obligations.FaultRecordIsSetOnceWithTheHalt : Prop :=
  (∀ C : Nat, (State.construct C).fault = none) ∧
  (∀ (m : OpcodeMap) (s t : State), s.fault = none → stepWith m s = .next t →
    (∀ record, t.fault = some record →
      t.runState = .halted ∧ ∃ op, t = s.afterFault op record.kind record.value ∧ record.ip = s.pc) ∧
    (t.runState = .halted → (t.fault = none ↔ fetchInstr m s = .ok .hlt)) ∧
    (fetchInstr m s = .ok .hlt → t.runState = .halted)) ∧
  (∀ (m : OpcodeMap) (s t u : State) (record : FaultRecord), s.Inv → Steps m s t → t.fault = some record → Steps m t u →
    u.fault = some record ∧ u = t) ∧
  (∀ (start : Nat) (bytes : List Byte) (s t : State), loadBytes start bytes s = .ok t → t.fault = s.fault) ∧
  ∀ (startIp : Nat) (s t : State), startRun startIp s = some t → t.fault = s.fault

/-- 60_exceptions.md R228: each step emits at most one event: `Print` by a completing PRN, `Fault` by fault entry, none by any
other instruction; with the fields the rule gives. -/
def Obligations.EventsOfAStep : Prop :=
  ∀ (m : OpcodeMap) (s t : State), s.fault = none → stepWith m s = .next t →
    (∀ record, t.fault = some record → ∃ op,
      t.events = s.events ++ [.fault record.ip op s.regs record.kind record.value] ∧
      (∀ b, s.mem.read (s.pc : Int) = .ok b → op = some b) ∧ (s.mem.capacity ≤ s.pc → op = none)) ∧
    (t.fault = none →
      (∀ r, fetchInstr m s = .ok (.prn r) → ∃ _ : r < 8,
        t.events = s.events ++ [.print s.pc (some m.prn) s.regs s.regs[r]]) ∧
      ((∀ r, fetchInstr m s ≠ .ok (.prn r)) → t.events = s.events))

/-- 60_exceptions.md R229: the observer port is output only. Whatever events were emitted before, the step does the same and
emits the same. -/
def Obligations.ObserverPortIsOutputOnly : Prop :=
  ∀ (m : OpcodeMap) (s t : State) (earlier : List Event), stepWith m s = .next t →
    ∃ new, t.events = s.events ++ new ∧
      stepWith m { s with events := earlier } = .next { t with events := earlier ++ new }

/-- 10_state.md R31: `program_end` is set by `load_bytes`, is 0 before any load, is written by no step, and is read by PUSH and
CALL alone: any other instruction does the same whatever its value. -/
def Obligations.ProgramEndIsReadOnlyByPushAndCall : Prop :=
  (∀ C : Nat, (State.construct C).programEnd = 0) ∧
  (∀ (start : Nat) (bytes : List Byte) (s t : State), loadBytes start bytes s = .ok t →
    t.programEnd = start + bytes.length) ∧
  (∀ (m : OpcodeMap) (s t : State), stepWith m s = .next t → t.programEnd = s.programEnd) ∧
  ∀ (i : Instr) (s t : State) (p : Nat), i.mnemonic ∉ [.push, .call] → exec i s = .next t →
    exec i { s with programEnd := p } = .next { t with programEnd := p }

/-! ## Invariants -/

/-- The invariant holds of a constructed CORE of every capacity the spec allows, and of the reset state, which is the CORE
constructed with the default capacity (log entry 3). -/
def Obligations.ConstructedCoreHasTheInvariant : Prop :=
  (∀ C : Nat, 1 ≤ C → (State.construct C).Inv) ∧ State.reset = State.construct 10000 ∧ State.reset.Inv

/-- Every step keeps the invariant (10_state.md section 11): memory canonical, `program_end` and the depth in their bounds, a
fault recorded only with the halt and with a non-negative value. -/
def Obligations.EveryStepKeepsTheInvariant : Prop :=
  ∀ (m : OpcodeMap) (s t : State), s.Inv → stepWith m s = .next t → t.Inv

/-- The host's operations keep the invariant too, so it holds of every state a host can bring a CORE to. -/
def Obligations.HostOperationsKeepTheInvariant : Prop :=
  (∀ (start : Nat) (bytes : List Byte) (s t : State), s.Inv → loadBytes start bytes s = .ok t → t.Inv) ∧
  ∀ (startIp : Nat) (s t : State), s.Inv → startRun startIp s = some t → t.Inv

/-- The largest value `pc` can reach (10_state.md section 4): `max(C, 257)` bounds it after every step that began within it. -/
def Obligations.ProgramCounterStaysInRange : Prop :=
  ∀ (m : OpcodeMap) (s t : State), s.pcInRange → stepWith m s = .next t → t.pcInRange

/-- "After every push, TOP - stack_depth > program_end holds" (10_state.md section 11 (d)): for every PUSH or CALL that
completes, in every state. -/
def Obligations.StackStaysAboveTheProgramAfterAPush : Prop :=
  ∀ (i : Instr) (s t : State), i.mnemonic ∈ [.push, .call] → s.fault = none → exec i s = .next t → t.fault = none →
    ((t.mem.capacity : Int) - 1) - t.stackDepth > t.programEnd

/-- 20_memory.md section 4 (its rule R62, which the spec marks as derived from R53, R60 and R61): over any number of steps from a state with the invariant, no address below `program_end + 2` is written
(the program image among them); and the host writes memory by `load_bytes` alone. -/
def Obligations.ProgramImageIsNeverWritten : Prop :=
  (∀ (m : OpcodeMap) (s t : State), s.Inv → Steps m s t →
    ∀ a : Int, a < (s.programEnd : Int) + 2 → t.mem.read a = s.mem.read a) ∧
  ∀ (startIp : Nat) (s t : State), startRun startIp s = some t → sameMemory s t

/-! ## The host's ports -/

/-- 70_reset_and_hazards.md R244: in Idle, the range is checked before anything is written; a load that fits stores its bytes
and records `program_end`; an error changes nothing, since it gives no new state. What happens outside Idle is the model's own
choice (log entry 8) and is not stated here. -/
def Obligations.LoadBytesContract : Prop :=
  ∀ (start : Nat) (bytes : List Byte) (s : State), s.runState = .idle →
    (0 < bytes.length → s.mem.capacity ≤ start + bytes.length - 1 → start < s.mem.capacity →
      loadBytes start bytes s = .error (.outOfBounds s.mem.capacity)) ∧
    (0 < bytes.length → s.mem.capacity ≤ start → loadBytes start bytes s = .error (.outOfBounds start)) ∧
    (bytes.length = 0 → s.mem.capacity < start → loadBytes start bytes s = .error (.outOfBounds start)) ∧
    (start + bytes.length ≤ s.mem.capacity → ∃ t, loadBytes start bytes s = .ok t ∧
      (∀ (k : Nat) (h : k < bytes.length), t.mem.read ((start : Int) + k) = .ok bytes[k]) ∧
      (∀ a : Int, a < start ∨ (start : Int) + bytes.length ≤ a → t.mem.read a = s.mem.read a) ∧
      t = { s with mem := t.mem, programEnd := start + bytes.length })

/-- `run` and its result (70_reset_and_hazards.md section 2) under the model's bound on the number of steps (log entry 14): `run`
is refused unless Idle; else it starts at `start_ip`, unchecked, and steps. `Ok` is a halt with no fault and `Err` a halt with
that record, both reached within the bound; a run is out of fuel only after as many steps as the bound, still Running. Every
halt that steps reach within the bound is answered, and more steps do not change a result. -/
def Obligations.RunEndsHaltedByHltOrFault : Prop :=
  (∀ (m : OpcodeMap) (fuel startIp : Nat) (s : State), s.runState ≠ .idle → hostRun m fuel startIp s = .notIdle) ∧
  ∀ (m : OpcodeMap) (fuel startIp : Nat) (s : State), s.runState = .idle →
    let began : State := { s with pc := startIp, runState := .running }
    (∃ n t, n ≤ fuel ∧ StepsIn m n began t ∧
      ((hostRun m fuel startIp s = .ok t ∧ t.haltedSafely) ∨
       (∃ record, hostRun m fuel startIp s = .err record t ∧ t.runState = .halted ∧ t.fault = some record) ∨
       (hostRun m fuel startIp s = .outOfFuel t ∧ t.runState = .running ∧ n = fuel))) ∧
    (∀ n t, n ≤ fuel → StepsIn m n began t → t.runState = .halted →
      (t.fault = none → hostRun m fuel startIp s = .ok t) ∧
      ∀ record, t.fault = some record → hostRun m fuel startIp s = .err record t) ∧
    ((∀ t, hostRun m fuel startIp s ≠ .outOfFuel t) → ∀ more, hostRun m (fuel + more) startIp s = hostRun m fuel startIp s)

/-- A fetch sees every earlier write (20_memory.md section 6), over any run of completing steps and for every opcode map. Each
address reads as the last store to it left it. Where the bytes at `pc`, each of them the last one stored to its address or, if
the run stored none, the one there before it, decode to `i`, the next step is `exec i`, whether the stored byte is the opcode or
an operand. A last stored byte that is no opcode is fetched as an illegal one, such as the zero a pop leaves. -/
def Obligations.FetchSeesEveryEarlierWrite : Prop :=
  (∀ (m : OpcodeMap) (stores : List (Int × Byte)) (s t : State), StepsStoring m stores s t →
    (∀ a : Int, t.mem.read a = s.mem.readAfter stores a) ∧
    (t.runState = .running →
      (∀ (bytes rest : List Byte) (i : Instr),
        (∀ (k : Nat) (h : k < bytes.length), s.mem.readAfter stores ((t.pc : Int) + k) = .ok bytes[k]) →
        decodeWith m bytes = .ok (i, rest) → stepWith m t = exec i t) ∧
      ∀ op : Byte, s.mem.readAfter stores t.pc = .ok op → m.lookup op = none →
        stepWith m t = .next (t.afterFault (some op) .illegalInstruction op.toNat))) ∧
  defaultOpcodes.lookup 0 = none
end

