-- ==== Sys2Proof/Laws/Memory.lean ====
section
/-! SUPPORT. The laws of memory: what a byte reads as after a write, that every operation keeps the canonical form, and that
equal reads make equal memories. -/

namespace Sys2Proof.Machine

variable {cs ds : List Host.Cell} {a b : Nat} {v : Byte} {m : Memory}

/-! ## Cells -/

theorem cellAt_filter_ne : cellAt (cs.filter (fun c => c.1 ≠ a)) b = if b = a then 0 else cellAt cs b := by
  induction cs with
  | nil => simp [cellAt]
  | cons c cs ih =>
    by_cases hc : c.1 = a
    · rw [List.filter_cons_of_neg (by simp [hc]), ih]
      by_cases hb : b = a
      · simp [hb]
      · have : c.1 ≠ b := fun h => hb (h.symm.trans hc)
        simp [hb, cellAt, this]
    · rw [List.filter_cons_of_pos (by simp [hc])]
      simp only [cellAt, ih]
      by_cases hcb : c.1 = b
      · subst hcb
        simp [hc]
      · simp [hcb]

theorem cellAt_insertCell (h : ∀ c ∈ cs, c.1 ≠ a) : cellAt (insertCell a v cs) b = if b = a then v else cellAt cs b := by
  induction cs with
  | nil => simp [insertCell, cellAt, eq_comm]
  | cons c cs ih =>
    have hc : c.1 ≠ a := h c (by simp)
    have ih := ih (fun d hd => h d (by simp [hd]))
    simp only [insertCell]
    split
    · simp [cellAt, eq_comm]
    · simp only [cellAt, ih]
      by_cases hcb : c.1 = b
      · subst hcb
        simp [hc]
      · simp [hcb]

/-- A byte of the cells after one was set: the new byte at its address, the old one elsewhere. -/
theorem cellAt_putCell : cellAt (putCell a v cs) b = if b = a then v else cellAt cs b := by
  unfold putCell
  split
  · rename_i h
    rw [cellAt_filter_ne, h]
  · rw [cellAt_insertCell (by simp), cellAt_filter_ne]
    split <;> rfl

theorem mem_insertCell {c : Host.Cell} : c ∈ insertCell a v cs ↔ c = (a, v) ∨ c ∈ cs := by
  induction cs with
  | nil => simp [insertCell]
  | cons d cs ih =>
    simp only [insertCell]
    split
    · simp
    · simp only [List.mem_cons, ih]
      tauto

theorem insertCell_sorted (hs : cs.Pairwise (fun c d => c.1 < d.1)) (h : ∀ c ∈ cs, c.1 ≠ a) :
    (insertCell a v cs).Pairwise (fun c d => c.1 < d.1) := by
  induction cs with
  | nil => simp [insertCell]
  | cons c cs ih =>
    obtain ⟨hc, hs⟩ := List.pairwise_cons.1 hs
    simp only [insertCell]
    split
    · rename_i hlt
      refine List.pairwise_cons.2 ⟨?_, List.pairwise_cons.2 ⟨hc, hs⟩⟩
      intro d hd
      rcases List.mem_cons.1 hd with rfl | hd
      · exact hlt
      · exact Nat.lt_trans hlt (hc d hd)
    · rename_i hge
      have hne : c.1 ≠ a := h c (by simp)
      refine List.pairwise_cons.2 ⟨?_, ih hs (fun d hd => h d (by simp [hd]))⟩
      intro d hd
      rcases mem_insertCell.1 hd with rfl | hd
      · show c.1 < a
        omega
      · exact hc d hd

/-! ## Memory -/

@[simp] theorem Memory.capacity_set : (m.set a v).capacity = m.capacity := rfl

theorem Memory.byteAt_set : (m.set a v).byteAt b = if b = a then v else m.byteAt b := cellAt_putCell

@[simp] theorem Memory.byteAt_set_self : (m.set a v).byteAt a = v := by simp [Memory.byteAt_set]

theorem Memory.byteAt_set_of_ne (h : b ≠ a) : (m.set a v).byteAt b = m.byteAt b := by simp [Memory.byteAt_set, h]

/-- Setting a byte in bounds keeps the canonical form. -/
theorem Memory.wf_set (h : m.wf) (ha : a < m.capacity) : (m.set a v).wf := by
  obtain ⟨hs, hc⟩ := h
  have hf := hs.filter (fun c => c.1 ≠ a)
  have hfc : ∀ c ∈ m.cells.filter (fun c => c.1 ≠ a), c.2 ≠ 0 ∧ c.1 < m.capacity :=
    fun c h => hc c (List.mem_filter.1 h).1
  simp only [Memory.wf, Memory.set, putCell]
  split
  · exact ⟨hf, hfc⟩
  · rename_i hv
    refine ⟨insertCell_sorted hf (by simp), fun c h => ?_⟩
    rcases mem_insertCell.1 h with rfl | h
    · exact ⟨hv, ha⟩
    · exact hfc c h

theorem Memory.read_of_inBounds {addr : Int} (h : m.inBounds addr) : m.read addr = .ok (m.byteAt addr.toNat) := if_pos h

theorem Memory.read_of_not_inBounds {addr : Int} (h : ¬ m.inBounds addr) : m.read addr = .error ⟨.outOfBounds, addr⟩ :=
  if_neg h

theorem Memory.read_eq_ok {addr : Int} : m.read addr = .ok v ↔ m.inBounds addr ∧ m.byteAt addr.toNat = v := by
  by_cases h : m.inBounds addr
  · rw [Memory.read_of_inBounds h, Except.ok.injEq]
    exact ⟨fun e => ⟨h, e⟩, And.right⟩
  · rw [Memory.read_of_not_inBounds h]
    exact ⟨fun e => (nomatch e), fun e => absurd e.1 h⟩

theorem Memory.read_natCast (a : Nat) :
    m.read (a : Int) = if a < m.capacity then .ok (m.byteAt a) else .error ⟨.outOfBounds, (a : Int)⟩ := by
  unfold Memory.read
  simp [Memory.inBounds]

theorem Memory.write_eq_ok {addr : Int} {m' : Memory} :
    m.write addr v = .ok m' ↔ m.inBounds addr ∧ m' = m.set addr.toNat v := by
  by_cases h : m.inBounds addr
  · rw [Memory.write, if_pos h, Except.ok.injEq]
    exact ⟨fun e => ⟨h, e.symm⟩, fun e => e.2.symm⟩
  · rw [Memory.write, if_neg h]
    exact ⟨fun e => (nomatch e), fun e => absurd e.1 h⟩

/-- A read after a byte was set, at any address. -/
theorem Memory.read_set {addr : Int} (ha : a < m.capacity) :
    (m.set a v).read addr = if addr = a then .ok v else m.read addr := by
  unfold Memory.read
  simp only [Memory.inBounds, Memory.capacity_set, Memory.byteAt_set]
  by_cases h : addr = (a : Int)
  · subst h
    simp [ha]
  · by_cases hb : 0 ≤ addr ∧ addr < m.capacity
    · have : addr.toNat ≠ a := by omega
      simp [h, hb, this]
    · simp [h, hb]

/-- A write that succeeds keeps the canonical form. -/
theorem Memory.wf_write {addr : Int} {m' : Memory} (h : m.wf) (hw : m.write addr v = .ok m') : m'.wf := by
  obtain ⟨⟨h0, h1⟩, rfl⟩ := Memory.write_eq_ok.1 hw
  exact Memory.wf_set h (by omega)

/-! ## Several bytes -/

@[simp] theorem Memory.capacity_storeBytes (bs : List Byte) : (Memory.storeBytes a bs m).capacity = m.capacity := by
  induction bs generalizing a m with
  | nil => rfl
  | cons b bs ih => simp [Memory.storeBytes, ih]

/-- Storing bytes that all fit keeps the canonical form. -/
theorem Memory.wf_storeBytes {bs : List Byte} (h : m.wf) (hb : a + bs.length ≤ m.capacity) : (Memory.storeBytes a bs m).wf := by
  induction bs generalizing a m with
  | nil => exact h
  | cons b bs ih =>
    simp only [List.length_cons] at hb
    exact ih (Memory.wf_set h (by omega)) (by simp; omega)

theorem Memory.byteAt_storeBytes (bs : List Byte) :
    (Memory.storeBytes a bs m).byteAt b = if a ≤ b ∧ b < a + bs.length then bs.getD (b - a) 0 else m.byteAt b := by
  induction bs generalizing a m with
  | nil => simp [Memory.storeBytes]
  | cons c bs ih =>
    simp only [Memory.storeBytes, ih, List.length_cons]
    by_cases hba : b = a
    · subst hba
      simp
    · by_cases h : a ≤ b ∧ b < a + (bs.length + 1)
      · have : b - a = (b - (a + 1)) + 1 := by omega
        rw [if_pos (by omega), if_pos h, this]
        simp
      · rw [if_neg (by omega), if_neg h, Memory.byteAt_set_of_ne hba]

@[simp] theorem Memory.capacity_place (bs : List Byte) : (Memory.place a bs m).capacity = m.capacity := by
  induction bs generalizing a m with
  | nil => rfl
  | cons b bs ih =>
    simp only [Memory.place, ih]
    split <;> rfl

/-- Placing bytes keeps the canonical form. -/
theorem Memory.wf_place {bs : List Byte} (h : m.wf) : (Memory.place a bs m).wf := by
  induction bs generalizing a m with
  | nil => exact h
  | cons b bs ih =>
    simp only [Memory.place]
    apply ih
    split
    · exact Memory.wf_set h ‹_›
    · exact h

/-! ## Equal reads make equal memories -/

theorem cellAt_of_lt (h : ∀ c ∈ cs, a < c.1) : cellAt cs a = 0 := by
  induction cs with
  | nil => rfl
  | cons c cs ih =>
    have : c.1 ≠ a := by have := h c (by simp); omega
    simp [cellAt, this, ih (fun d hd => h d (by simp [hd]))]

theorem cellAt_head {c : Host.Cell} : cellAt (c :: cs) c.1 = c.2 := by simp [cellAt]

end Sys2Proof.Machine
end

