-- ==== Sys2Proof/Laws/State.lean ====
section
/-! SUPPORT. One lemma per field for each update of the state, true by rfl, so that no later proof unfolds an update. -/

namespace Sys2Proof.Machine

variable (s : State) (n v : Nat) (c : Int) (e : Event) (t : Trap) (k : FaultKind) (op : Option Byte)

/-! ## s.advance n -/

@[simp] theorem advance_mem : (s.advance n).mem = s.mem := rfl
@[simp] theorem advance_regs : (s.advance n).regs = s.regs := rfl
@[simp] theorem advance_pc : (s.advance n).pc = s.pc + n := rfl
@[simp] theorem advance_stackDepth : (s.advance n).stackDepth = s.stackDepth := rfl
@[simp] theorem advance_programEnd : (s.advance n).programEnd = s.programEnd := rfl
@[simp] theorem advance_runState : (s.advance n).runState = s.runState := rfl
@[simp] theorem advance_fault : (s.advance n).fault = s.fault := rfl
@[simp] theorem advance_events : (s.advance n).events = s.events := rfl

/-! ## s.jump n -/

@[simp] theorem jump_mem : (s.jump n).mem = s.mem := rfl
@[simp] theorem jump_regs : (s.jump n).regs = s.regs := rfl
@[simp] theorem jump_pc : (s.jump n).pc = n := rfl
@[simp] theorem jump_stackDepth : (s.jump n).stackDepth = s.stackDepth := rfl
@[simp] theorem jump_programEnd : (s.jump n).programEnd = s.programEnd := rfl
@[simp] theorem jump_runState : (s.jump n).runState = s.runState := rfl
@[simp] theorem jump_fault : (s.jump n).fault = s.fault := rfl
@[simp] theorem jump_events : (s.jump n).events = s.events := rfl

/-! ## emit e s -/

@[simp] theorem emit_mem : (emit e s).mem = s.mem := rfl
@[simp] theorem emit_regs : (emit e s).regs = s.regs := rfl
@[simp] theorem emit_pc : (emit e s).pc = s.pc := rfl
@[simp] theorem emit_stackDepth : (emit e s).stackDepth = s.stackDepth := rfl
@[simp] theorem emit_programEnd : (emit e s).programEnd = s.programEnd := rfl
@[simp] theorem emit_runState : (emit e s).runState = s.runState := rfl
@[simp] theorem emit_fault : (emit e s).fault = s.fault := rfl
@[simp] theorem emit_events : (emit e s).events = s.events ++ [e] := rfl

/-! ## takeFault t s -/

@[simp] theorem takeFault_mem : (takeFault t s).mem = s.mem := rfl
@[simp] theorem takeFault_regs : (takeFault t s).regs = s.regs := rfl
@[simp] theorem takeFault_pc : (takeFault t s).pc = s.pc := rfl
@[simp] theorem takeFault_stackDepth : (takeFault t s).stackDepth = s.stackDepth := rfl
@[simp] theorem takeFault_programEnd : (takeFault t s).programEnd = s.programEnd := rfl
@[simp] theorem takeFault_runState : (takeFault t s).runState = .halted := rfl
@[simp] theorem takeFault_fault : (takeFault t s).fault = some { kind := t.kind, ip := s.pc, value := t.value } := rfl
@[simp] theorem takeFault_events : (takeFault t s).events = s.events ++ [.fault s.pc s.opcodeByte s.regs t.kind t.value] := rfl

/-! ## s.afterFault op k c -/

@[simp] theorem afterFault_mem : (s.afterFault op k c).mem = s.mem := rfl
@[simp] theorem afterFault_regs : (s.afterFault op k c).regs = s.regs := rfl
@[simp] theorem afterFault_pc : (s.afterFault op k c).pc = s.pc := rfl
@[simp] theorem afterFault_stackDepth : (s.afterFault op k c).stackDepth = s.stackDepth := rfl
@[simp] theorem afterFault_programEnd : (s.afterFault op k c).programEnd = s.programEnd := rfl
@[simp] theorem afterFault_runState : (s.afterFault op k c).runState = .halted := rfl
@[simp] theorem afterFault_fault : (s.afterFault op k c).fault = some { kind := k, ip := s.pc, value := c } := rfl
@[simp] theorem afterFault_events : (s.afterFault op k c).events = s.events ++ [.fault s.pc op s.regs k c] := rfl

/-! ## s.withFetchWord n v -/

@[simp] theorem withFetchWord_mem : (s.withFetchWord n v).mem = Memory.place s.pc (tableWordBytes n v) s.mem := rfl
@[simp] theorem withFetchWord_regs : (s.withFetchWord n v).regs = s.regs := rfl
@[simp] theorem withFetchWord_pc : (s.withFetchWord n v).pc = s.pc := rfl
@[simp] theorem withFetchWord_stackDepth : (s.withFetchWord n v).stackDepth = s.stackDepth := rfl
@[simp] theorem withFetchWord_programEnd : (s.withFetchWord n v).programEnd = s.programEnd := rfl
@[simp] theorem withFetchWord_runState : (s.withFetchWord n v).runState = .running := rfl
@[simp] theorem withFetchWord_fault : (s.withFetchWord n v).fault = s.fault := rfl
@[simp] theorem withFetchWord_events : (s.withFetchWord n v).events = s.events := rfl

/-! ## State.construct n -/

@[simp] theorem construct_mem : (State.construct n).mem = { capacity := n, cells := [] } := rfl
@[simp] theorem construct_regs : (State.construct n).regs = Vector.replicate 8 0 := rfl
@[simp] theorem construct_pc : (State.construct n).pc = 0 := rfl
@[simp] theorem construct_stackDepth : (State.construct n).stackDepth = 0 := rfl
@[simp] theorem construct_programEnd : (State.construct n).programEnd = 0 := rfl
@[simp] theorem construct_runState : (State.construct n).runState = .idle := rfl
@[simp] theorem construct_fault : (State.construct n).fault = none := rfl
@[simp] theorem construct_events : (State.construct n).events = [] := rfl

theorem reset_eq_construct : State.reset = State.construct 10000 := rfl

theorem sp_eq : s.sp = (s.mem.capacity : Int) - 1 - s.stackDepth := rfl

/-- Fault entry, written out. -/
theorem takeFault_eq_afterFault : takeFault t s = s.afterFault s.opcodeByte t.kind t.value := rfl

end Sys2Proof.Machine
end

