-- ==== Sys2Proof/Laws/Ops.lean ====
section
/-! SUPPORT. What each shared operation can do, said once: register access, the stack manager, the end of a handler, the fetch
phases. Later proofs cite these and do not unfold the operations. -/

namespace Sys2Proof.Machine

variable {s t : State} {v : Byte} {r : Nat}

/-! ## Sequencing -/

@[simp] theorem except_ok_bind {α β : Type} (a : α) (f : α → Except Trap β) :
    ((Except.ok a : Except Trap α) >>= f) = f a := rfl

@[simp] theorem except_error_bind {α β : Type} (e : Trap) (f : α → Except Trap β) :
    ((Except.error e : Except Trap α) >>= f) = .error e := rfl

@[simp] theorem except_pure {α : Type} (a : α) : (pure a : Except Trap α) = .ok a := rfl

/-- A sequence succeeds exactly when both parts do. -/
theorem except_bind_eq_ok {α β : Type} {x : Except Trap α} {f : α → Except Trap β} {b : β} :
    (x >>= f) = .ok b ↔ ∃ a, x = .ok a ∧ f a = .ok b := by
  cases x <;> simp

@[simp] theorem finish_ok : finish s (.ok t) = .next t := rfl

@[simp] theorem finish_error (e : Trap) : finish s (.error e) = .next (takeFault e s) := rfl

/-- The end of a handler: its own next state, or fault entry; never a stop. -/
theorem finish_eq_next {x : Except Trap State} :
    finish s x = .next t ↔ x = .ok t ∨ ∃ e, x = .error e ∧ t = takeFault e s := by
  cases x <;> simp [eq_comm]

/-! ## Registers and operands -/

@[simp] theorem regOk_of_lt (h : r < 8) : regOk r = .ok () := if_pos h

@[simp] theorem regOk_of_ge (h : 8 ≤ r) : regOk r = .error ⟨.invalidRegister, r⟩ := if_neg (by omega)

theorem regOk_eq_ok {u : Unit} : regOk r = .ok u ↔ r < 8 := by
  unfold regOk
  split <;> simp [*]

@[simp] theorem readReg_of_lt (h : r < 8) : readReg r s = .ok s.regs[r] := dif_pos h

theorem readReg_eq_ok : readReg r s = .ok v ↔ ∃ h : r < 8, s.regs[r] = v := by
  unfold readReg
  split <;> simp [*]

@[simp] theorem writeReg_of_lt (h : r < 8) : writeReg r v s = .ok { s with regs := s.regs.set r v } := dif_pos h

theorem writeReg_eq_ok : writeReg r v s = .ok t ↔ ∃ h : r < 8, t = { s with regs := s.regs.set r v } := by
  unfold writeReg
  split <;> simp [*, eq_comm]

@[simp] theorem immediate_eq (v : Byte) : immediate v = v := BitVec.setWidth_eq v

/-! ## The stack manager -/

/-- `push`, with the overflow check over naturals. The write is always in bounds (20_memory.md R60). -/
theorem push_eq (v : Byte) (s : State) :
    push v s = if s.mem.capacity ≤ s.programEnd + s.stackDepth + 2 then .error ⟨.stackOverflow, s.sp⟩
      else .ok { s with
        mem := s.mem.set (s.mem.capacity - 1 - s.stackDepth) v
        stackDepth := s.stackDepth + 1 } := by
  have hsp := sp_eq s
  by_cases h : s.mem.capacity ≤ s.programEnd + s.stackDepth + 2
  · have h' : s.sp - 1 ≤ s.programEnd := by omega
    simp [push, h, h']
  · have h' : ¬ s.sp - 1 ≤ s.programEnd := by omega
    have hb : s.mem.inBounds s.sp := ⟨by omega, by omega⟩
    have ha : s.sp.toNat = s.mem.capacity - 1 - s.stackDepth := by omega
    simp only [push, h, h', if_false, Memory.write, if_pos hb, ha]

/-- What a push that succeeds did. -/
theorem push_eq_ok : push v s = .ok t ↔ s.programEnd + s.stackDepth + 2 < s.mem.capacity ∧
    t = { s with mem := s.mem.set (s.mem.capacity - 1 - s.stackDepth) v, stackDepth := s.stackDepth + 1 } := by
  rw [push_eq]
  split
  · simp; omega
  · simp only [Except.ok.injEq]
    exact ⟨fun h => ⟨by omega, h.symm⟩, fun h => h.2.symm⟩

theorem push_eq_error {e : Trap} : push v s = .error e ↔
    s.mem.capacity ≤ s.programEnd + s.stackDepth + 2 ∧ e = ⟨.stackOverflow, s.sp⟩ := by
  rw [push_eq]
  split <;> simp [*, eq_comm]

/-- `pop`, with the address over naturals: underflow on an empty stack, the top slot otherwise, and OutOfBounds where the
depth exceeds the capacity, which no run reaches. -/
theorem pop_eq (s : State) :
    pop s = if s.stackDepth = 0 then .error ⟨.stackUnderflow, 0⟩
      else if s.stackDepth ≤ s.mem.capacity then
        .ok (s.mem.byteAt (s.mem.capacity - s.stackDepth), { s with
          mem := s.mem.set (s.mem.capacity - s.stackDepth) 0
          stackDepth := s.stackDepth - 1 })
      else .error ⟨.outOfBounds, (s.mem.capacity : Int) - s.stackDepth⟩ := by
  by_cases h0 : s.stackDepth = 0
  · simp [pop, h0]
  · have hsp : State.sp { s with stackDepth := s.stackDepth - 1 } = (s.mem.capacity : Int) - s.stackDepth := by
      rw [sp_eq]
      simp only
      omega
    by_cases hc : s.stackDepth ≤ s.mem.capacity
    · have hb : s.mem.inBounds ((s.mem.capacity : Int) - s.stackDepth) := ⟨by omega, by omega⟩
      have ha : ((s.mem.capacity : Int) - s.stackDepth).toNat = s.mem.capacity - s.stackDepth := by omega
      simp only [pop, h0, hc, if_true, if_false, hsp, Memory.read_of_inBounds hb, Memory.write, if_pos hb, ha]
    · have hb : ¬ s.mem.inBounds ((s.mem.capacity : Int) - s.stackDepth) := fun h => by have := h.1; omega
      simp only [pop, h0, hc, if_false, hsp, Memory.read_of_not_inBounds hb]

/-- What a pop that succeeds did. -/
theorem pop_eq_ok {p : Byte × State} : pop s = .ok p ↔ 0 < s.stackDepth ∧ s.stackDepth ≤ s.mem.capacity ∧
    p = (s.mem.byteAt (s.mem.capacity - s.stackDepth), { s with
          mem := s.mem.set (s.mem.capacity - s.stackDepth) 0, stackDepth := s.stackDepth - 1 }) := by
  rw [pop_eq]
  split
  · simp; omega
  · split
    · simp only [Except.ok.injEq]
      exact ⟨fun h => ⟨by omega, by omega, h.symm⟩, fun h => h.2.2.symm⟩
    · simp; omega

/-! ## Fetch -/

theorem decodeOpcode_eq_ok {m : OpcodeMap} {op : Byte} {h : Mnemonic} : decodeOpcode m op = .ok h ↔ m.lookup op = some h := by
  unfold decodeOpcode
  split <;> simp [*]

/-- Bytes read from memory at increasing addresses, one condition per byte. -/
theorem readBytes_cons {m : Memory} {a n : Nat} {b : Byte} {bs : List Byte} :
    m.readBytes a (n + 1) = .ok (b :: bs) ↔ m.read a = .ok b ∧ m.readBytes (a + 1) n = .ok bs := by
  simp only [Memory.readBytes]
  cases h1 : m.read (a : Int) with
  | error e => simp
  | ok c =>
    cases h2 : m.readBytes (a + 1) n with
    | error e => simp
    | ok cs => simp

theorem readBytes_length {m : Memory} {a n : Nat} {bs : List Byte} (h : m.readBytes a n = .ok bs) : bs.length = n := by
  induction n generalizing a bs with
  | zero =>
    simp only [Memory.readBytes, Except.ok.injEq] at h
    simp [← h]
  | succ n ih =>
    cases bs with
    | nil =>
      simp only [Memory.readBytes] at h
      cases h1 : m.read (a : Int) <;> simp only [h1, reduceCtorEq] at h
      cases h2 : m.readBytes (a + 1) n <;> simp [h2] at h
    | cons b bs => simp [ih (readBytes_cons.1 h).2]

/-- What a fetch that succeeds read. -/
theorem fetchInstr_eq_ok {m : OpcodeMap} {i : Instr} : fetchInstr m s = .ok i ↔
    ∃ op h bs, s.mem.read s.pc = .ok op ∧ m.lookup op = some h ∧ s.mem.readBytes (s.pc + 1) h.operandCount = .ok bs ∧
      assemble h bs = i := by
  simp only [fetchInstr, except_bind_eq_ok, decodeOpcode_eq_ok, except_pure, Except.ok.injEq]
  constructor
  · rintro ⟨op, h1, h, h2, bs, h3, h4⟩
    exact ⟨op, h, bs, h1, h2, h3, h4⟩
  · rintro ⟨op, h, bs, h1, h2, h3, h4⟩
    exact ⟨op, h1, h, h2, bs, h3, h4⟩

/-- A Running CORE that fetches an instruction runs it. -/
theorem stepWith_of_fetch {m : OpcodeMap} {i : Instr} (hr : s.runState = .running) (hf : fetchInstr m s = .ok i) :
    stepWith m s = exec i s := by
  simp [stepWith, hr, hf]

theorem stepWith_of_fetch_error {m : OpcodeMap} {e : Trap} (hr : s.runState = .running) (hf : fetchInstr m s = .error e) :
    stepWith m s = .next (takeFault e s) := by
  simp [stepWith, hr, hf]

/-- A step that answers a next state was taken while Running, and ran the fetched instruction or took a fetch fault. -/
theorem stepWith_eq_next {m : OpcodeMap} : stepWith m s = .next t ↔ s.runState = .running ∧
    ((∃ i, fetchInstr m s = .ok i ∧ exec i s = .next t) ∨ ∃ e, fetchInstr m s = .error e ∧ t = takeFault e s) := by
  unfold stepWith
  cases s.runState with
  | idle => simp
  | halted => simp
  | running =>
    cases fetchInstr m s with
    | ok i => simp
    | error e => simp [eq_comm]

end Sys2Proof.Machine
end

