-- ==== Sys2Proof/Laws/Exec.lean ====
section
/-! SUPPORT. What an instruction can do, said once: the effect its rule gives it, or fault entry from the state before it.
Invariants and frames are derived from this and do not unfold the meanings. -/

namespace Sys2Proof.Machine

/-- The effect of an instruction that completes, guards included (41_basic.md to 44_alu.md). -/
def Effect : Instr → State → State → Prop
  | .hlt, s, t => t = { s with runState := .halted }
  | .ldi r imm8, s, t => ∃ _ : r < 8, t = { s with regs := s.regs.set r imm8, pc := s.pc + 3 }
  | .prn r, s, t => ∃ _ : r < 8,
      t = { s with pc := s.pc + 2, events := s.events ++ [.print s.pc s.opcodeByte s.regs s.regs[r]] }
  | .push r, s, t => ∃ _ : r < 8, s.programEnd + s.stackDepth + 2 < s.mem.capacity ∧
      t = { s with
        mem := s.mem.set (s.mem.capacity - 1 - s.stackDepth) s.regs[r]
        stackDepth := s.stackDepth + 1
        pc := s.pc + 2 }
  | .pop r, s, t => ∃ _ : r < 8, 0 < s.stackDepth ∧ s.stackDepth ≤ s.mem.capacity ∧
      t = { s with
        mem := s.mem.set (s.mem.capacity - s.stackDepth) 0
        regs := s.regs.set r (s.mem.byteAt (s.mem.capacity - s.stackDepth))
        stackDepth := s.stackDepth - 1
        pc := s.pc + 2 }
  | .call r, s, t => ∃ _ : r < 8, s.pc ≤ 255 ∧ s.programEnd + s.stackDepth + 2 < s.mem.capacity ∧
      t = { s with
        mem := s.mem.set (s.mem.capacity - 1 - s.stackDepth) (BitVec.ofNat 8 s.pc)
        stackDepth := s.stackDepth + 1
        pc := s.regs[r].toNat }
  | .ret, s, t => 0 < s.stackDepth ∧ s.stackDepth ≤ s.mem.capacity ∧
      t = { s with
        mem := s.mem.set (s.mem.capacity - s.stackDepth) 0
        stackDepth := s.stackDepth - 1
        pc := (s.mem.byteAt (s.mem.capacity - s.stackDepth)).toNat + 2 }
  | .add a b, s, t => ∃ (_ : a < 8) (_ : b < 8) (v : Byte), aluApply tagAdd s.regs[a] s.regs[b] = .ok v ∧
      t = { s with regs := s.regs.set a v, pc := s.pc + 3 }
  | .sub a b, s, t => ∃ (_ : a < 8) (_ : b < 8) (v : Byte), aluApply tagSub s.regs[a] s.regs[b] = .ok v ∧
      t = { s with regs := s.regs.set a v, pc := s.pc + 3 }
  | .mul a b, s, t => ∃ (_ : a < 8) (_ : b < 8) (v : Byte), aluApply tagMul s.regs[a] s.regs[b] = .ok v ∧
      t = { s with regs := s.regs.set a v, pc := s.pc + 3 }
  | .div a b, s, t => ∃ (_ : a < 8) (_ : b < 8) (v : Byte), aluApply tagDiv s.regs[a] s.regs[b] = .ok v ∧
      t = { s with regs := s.regs.set a v, pc := s.pc + 3 }

/-- What a handler can raise: never UnsupportedOperation, and a non-negative value but for the two stack addresses, which are
non-negative in every state a run reaches. -/
def Raises (s : State) (e : Trap) : Prop :=
  e.kind ≠ .unsupportedOperation ∧ (0 ≤ e.value ∨ e.value = s.sp ∨ s.mem.capacity < s.stackDepth)

variable {s : State} {r : Nat}

theorem regOk_raises {e : Trap} (h : regOk r = .error e) : Raises s e := by
  unfold regOk at h
  split at h
  · cases h
  · cases h
    exact ⟨by simp, .inl (by simp)⟩

theorem push_raises {v : Byte} {e : Trap} (h : push v s = .error e) : Raises s e := by
  obtain ⟨-, rfl⟩ := push_eq_error.1 h
  exact ⟨by simp, .inr (.inl rfl)⟩

theorem pop_raises {e : Trap} (h : pop s = .error e) : Raises s e := by
  rw [pop_eq] at h
  split at h
  · cases h
    exact ⟨by simp, .inl (by simp)⟩
  · split at h
    · cases h
    · cases h
      exact ⟨by simp, .inr (.inr (by omega))⟩

theorem returnAddress_eq (pc : Nat) : returnAddress pc =
    if pc ≤ 255 then .ok (BitVec.ofNat 8 pc) else .error ⟨.returnAddressRange, pc⟩ := by
  unfold returnAddress
  split <;> split <;> first | rfl | omega

/-! ## The ALU -/

theorem aluApply_add (a b : Byte) : aluApply tagAdd a b = .ok (narrow ((a.toNat : Int) + b.toNat)) := rfl
theorem aluApply_sub (a b : Byte) : aluApply tagSub a b = .ok (narrow ((a.toNat : Int) - b.toNat)) := rfl
theorem aluApply_mul (a b : Byte) : aluApply tagMul a b = .ok (narrow ((a.toNat : Int) * b.toNat)) := rfl
theorem aluApply_div (a b : Byte) : aluApply tagDiv a b =
    if b = 0 then .error .divisionByZero else .ok (narrow ((a.toNat : Int) / b.toNat)) := rfl

/-- The narrowed value is the mathematical one reduced modulo 256. -/
theorem toNat_narrow (x : Int) : ((narrow x).toNat : Int) = x % 256 := by
  unfold narrow
  rw [BitVec.toNat_ofNat]
  omega

/-- The four tags are all the ALU is called with, and none of them is unsupported (44_alu.md R191). -/
theorem aluApply_error {tag : BitVec 8} {a b : Byte} {k : FaultKind} (h : aluApply tag a b = .error k)
    (ht : tag ∈ [tagAdd, tagSub, tagMul, tagDiv]) : k = .divisionByZero := by
  simp only [List.mem_cons, List.not_mem_nil, or_false] at ht
  rcases ht with rfl | rfl | rfl | rfl
  · cases h
  · cases h
  · cases h
  · rw [aluApply_div] at h
    split at h <;> cases h
    rfl

/-- The common part of the arithmetic instructions: the result in `x[a]`, or a fault. -/
theorem arithmetic_cases {tag : BitVec 8} (a b : Nat) (s : State) (ht : tag ∈ [tagAdd, tagSub, tagMul, tagDiv]) :
    (∃ (_ : a < 8) (_ : b < 8) (v : Byte), aluApply tag s.regs[a] s.regs[b] = .ok v ∧
      arithmetic tag a b s = .ok { s with regs := s.regs.set a v }) ∨
    ∃ e, arithmetic tag a b s = .error e ∧ Raises s e := by
  by_cases ha : a < 8
  · by_cases hb : b < 8
    · cases h : aluApply tag s.regs[a] s.regs[b] with
      | ok v => exact .inl ⟨ha, hb, v, h, by simp [arithmetic, ha, hb, h]⟩
      | error k =>
        obtain rfl := aluApply_error h ht
        exact .inr ⟨⟨.divisionByZero, b⟩, by simp [arithmetic, ha, hb, h], by simp, .inl (by simp)⟩
    · refine .inr ⟨_, ?_, regOk_raises (r := b) (regOk_of_ge (by omega))⟩
      simp [arithmetic, ha, regOk_of_ge (r := b) (by omega)]
  · refine .inr ⟨_, ?_, regOk_raises (r := a) (regOk_of_ge (by omega))⟩
    simp [arithmetic, regOk_of_ge (r := a) (by omega)]

/-! ## Every instruction -/

/-- An arithmetic instruction: the result in `x[a]` and the advance, or fault entry. -/
theorem finish_arithmetic {tag : BitVec 8} (a b n : Nat) (s : State) (ht : tag ∈ [tagAdd, tagSub, tagMul, tagDiv]) :
    (∃ (_ : a < 8) (_ : b < 8) (v : Byte), aluApply tag s.regs[a] s.regs[b] = .ok v ∧
      finish s (do
        let t ← arithmetic tag a b s
        pure (t.advance n)) = .next { s with regs := s.regs.set a v, pc := s.pc + n }) ∨
    ∃ e, Raises s e ∧ finish s (do
        let t ← arithmetic tag a b s
        pure (t.advance n)) = .next (takeFault e s) := by
  rcases arithmetic_cases a b s ht with ⟨ha, hb, v, hv, h⟩ | ⟨e, h, he⟩
  · exact .inl ⟨ha, hb, v, hv, by rw [h]; rfl⟩
  · exact .inr ⟨e, he, by rw [h]; rfl⟩

/-- What an instruction can do: its effect, or fault entry from the state before it. -/
theorem exec_cases (i : Instr) (s : State) :
    (∃ t, Effect i s t ∧ exec i s = .next t) ∨ ∃ e, Raises s e ∧ exec i s = .next (takeFault e s) := by
  cases i with
  | hlt => exact .inl ⟨_, rfl, rfl⟩
  | ldi r imm8 =>
    by_cases h : r < 8
    · exact .inl ⟨_, ⟨h, rfl⟩, by simp [exec, execLdi, h]; rfl⟩
    · have hr := regOk_of_ge (r := r) (by omega)
      exact .inr ⟨_, regOk_raises hr, by simp [exec, execLdi, hr]⟩
  | prn r =>
    by_cases h : r < 8
    · exact .inl ⟨_, ⟨h, rfl⟩, by simp [exec, execPrn, h]; rfl⟩
    · have hr := regOk_of_ge (r := r) (by omega)
      exact .inr ⟨_, regOk_raises hr, by simp [exec, execPrn, hr]⟩
  | push r =>
    by_cases h : r < 8
    · cases hp : push s.regs[r] s with
      | ok t =>
        obtain ⟨hc, rfl⟩ := push_eq_ok.1 hp
        exact .inl ⟨_, ⟨h, hc, rfl⟩, by simp [exec, execPush, h, hp]; rfl⟩
      | error e => exact .inr ⟨e, push_raises hp, by simp [exec, execPush, h, hp]⟩
    · have hr := regOk_of_ge (r := r) (by omega)
      exact .inr ⟨_, regOk_raises hr, by simp [exec, execPush, hr]⟩
  | pop r =>
    by_cases h : r < 8
    · cases hp : pop s with
      | ok p =>
        obtain ⟨h0, hc, rfl⟩ := pop_eq_ok.1 hp
        exact .inl ⟨_, ⟨h, h0, hc, rfl⟩, by simp [exec, execPop, h, hp]; rfl⟩
      | error e => exact .inr ⟨e, pop_raises hp, by simp [exec, execPop, h, hp]⟩
    · have hr := regOk_of_ge (r := r) (by omega)
      exact .inr ⟨_, regOk_raises hr, by simp [exec, execPop, hr]⟩
  | call r =>
    by_cases h : r < 8
    · by_cases h255 : s.pc ≤ 255
      · cases hp : push (BitVec.ofNat 8 s.pc) s with
        | ok t =>
          obtain ⟨hc, rfl⟩ := push_eq_ok.1 hp
          exact .inl ⟨_, ⟨h, h255, hc, rfl⟩, by simp [exec, execCall, h, returnAddress_eq, h255, hp]; rfl⟩
        | error e => exact .inr ⟨e, push_raises hp, by simp [exec, execCall, h, returnAddress_eq, h255, hp]⟩
      · exact .inr ⟨⟨.returnAddressRange, s.pc⟩, ⟨by simp, .inl (by simp)⟩,
          by simp [exec, execCall, h, returnAddress_eq, h255]⟩
    · have hr := regOk_of_ge (r := r) (by omega)
      exact .inr ⟨_, regOk_raises hr, by simp [exec, execCall, hr]⟩
  | ret =>
    cases hp : pop s with
    | ok p =>
      obtain ⟨h0, hc, rfl⟩ := pop_eq_ok.1 hp
      exact .inl ⟨_, ⟨h0, hc, rfl⟩, by simp [exec, execRet, hp]; rfl⟩
    | error e => exact .inr ⟨e, pop_raises hp, by simp [exec, execRet, hp]⟩
  | add a b =>
    rcases finish_arithmetic (tag := tagAdd) a b 3 s (by simp) with ⟨ha, hb, v, hv, h⟩ | ⟨e, he, h⟩
    · exact .inl ⟨_, ⟨ha, hb, v, hv, rfl⟩, h⟩
    · exact .inr ⟨e, he, h⟩
  | sub a b =>
    rcases finish_arithmetic (tag := tagSub) a b 3 s (by simp) with ⟨ha, hb, v, hv, h⟩ | ⟨e, he, h⟩
    · exact .inl ⟨_, ⟨ha, hb, v, hv, rfl⟩, h⟩
    · exact .inr ⟨e, he, h⟩
  | mul a b =>
    rcases finish_arithmetic (tag := tagMul) a b 3 s (by simp) with ⟨ha, hb, v, hv, h⟩ | ⟨e, he, h⟩
    · exact .inl ⟨_, ⟨ha, hb, v, hv, rfl⟩, h⟩
    · exact .inr ⟨e, he, h⟩
  | div a b =>
    rcases finish_arithmetic (tag := tagDiv) a b 3 s (by simp) with ⟨ha, hb, v, hv, h⟩ | ⟨e, he, h⟩
    · exact .inl ⟨_, ⟨ha, hb, v, hv, rfl⟩, h⟩
    · exact .inr ⟨e, he, h⟩

/-- An instruction that answers a next state has its effect or takes a fault. -/
theorem exec_next_cases {i : Instr} {t : State} (h : exec i s = .next t) :
    Effect i s t ∨ ∃ e, Raises s e ∧ t = takeFault e s := by
  rcases exec_cases i s with ⟨u, hu, hn⟩ | ⟨e, he, hn⟩
  · rw [hn] at h
    cases h
    exact .inl hu
  · rw [hn] at h
    cases h
    exact .inr ⟨e, he, rfl⟩

/-! ## Stores and runs -/

/-- Stores one after another: a memory that the first ones led to stands for them. -/
theorem Memory.readAfter_append {m m' : Memory} {xs ys : List (Int × Byte)} (h : ∀ a, m'.read a = m.readAfter xs a) (a : Int) :
    m.readAfter (xs ++ ys) a = m'.readAfter ys a := by
  simp only [Memory.readAfter, List.reverse_append, List.find?_append]
  cases ys.reverse.find? (fun w => decide (w.1 = a)) with
  | some w => rfl
  | none => simpa [Memory.readAfter] using (h a).symm

/-- One byte set reads as one store. -/
theorem Memory.read_set_eq_readAfter {m : Memory} {n : Nat} {addr : Int} {v : Byte} (hn : n < m.capacity) (ha : addr = n) (a : Int) :
    (m.set n v).read a = m.readAfter [(addr, v)] a := by
  subst ha
  rw [Memory.read_set hn]
  by_cases h : a = n
  · simp [Memory.readAfter, h]
  · simp [Memory.readAfter, h, Ne.symm h]

/-- What an instruction that completes stores, and that it stores nothing else. -/
theorem effect_read {i : Instr} {t : State} (h : Effect i s t) (a : Int) :
    t.mem.read a = s.mem.readAfter (storeOf s i).toList a := by
  have hsp := sp_eq s
  cases i with
  | hlt => cases h; rfl
  | ldi => obtain ⟨_, rfl⟩ := h; rfl
  | prn => obtain ⟨_, rfl⟩ := h; rfl
  | push r =>
    obtain ⟨hr, hc, rfl⟩ := h
    simp only [storeOf, hr, Vector.getElem?_eq_getElem, Option.map_some, Option.toList_some]
    exact Memory.read_set_eq_readAfter (by omega) (by omega) a
  | pop r =>
    obtain ⟨_, _, hc, rfl⟩ := h
    exact Memory.read_set_eq_readAfter (by omega) (by omega) a
  | call r =>
    obtain ⟨_, _, hc, rfl⟩ := h
    exact Memory.read_set_eq_readAfter (by omega) (by omega) a
  | ret =>
    obtain ⟨_, hc, rfl⟩ := h
    exact Memory.read_set_eq_readAfter (by omega) (by omega) a
  | add => obtain ⟨_, _, _, _, rfl⟩ := h; rfl
  | sub => obtain ⟨_, _, _, _, rfl⟩ := h; rfl
  | mul => obtain ⟨_, _, _, _, rfl⟩ := h; rfl
  | div => obtain ⟨_, _, _, _, rfl⟩ := h; rfl

/-- A counted run is a run. -/
theorem StepsIn.steps {m : OpcodeMap} {n : Nat} {t : State} (h : StepsIn m n s t) : Steps m s t := by
  induction h with
  | refl => exact .refl
  | step hs _ ih => exact .step hs ih

end Sys2Proof.Machine
end

