-- ==== Sys2Proof/Laws/PerInstr.lean ====
section
/-! SUPPORT. Statements about every instruction as syntax, one lemma per constructor (LAWS.json "per_instruction"). -/

namespace Sys2Proof.Laws

theorem toNat_operandByte {r : Nat} (h : r < 256) : (operandByte r).toNat = r := by
  simp [operandByte, Nat.mod_eq_of_lt h]

/-- A well-formed instruction is what its own handler assembles from its operand bytes. -/
def AssembleOperands.Statement (i : Instr) : Prop := i.wellFormed → assemble i.mnemonic i.operandBytes = i

namespace AssembleOperands

theorem hlt : Statement .hlt := fun _ => rfl

theorem ldi (r : Nat) (imm8 : Byte) : Statement (.ldi r imm8) := fun h => by
  have hr := toNat_operandByte (h r (by simp [Instr.registerOperands]))
  simp [assemble, Instr.mnemonic, Instr.operandBytes, hr]

theorem prn (r : Nat) : Statement (.prn r) := fun h => by
  have hr := toNat_operandByte (h r (by simp [Instr.registerOperands]))
  simp [assemble, Instr.mnemonic, Instr.operandBytes, hr]

theorem push (r : Nat) : Statement (.push r) := fun h => by
  have hr := toNat_operandByte (h r (by simp [Instr.registerOperands]))
  simp [assemble, Instr.mnemonic, Instr.operandBytes, hr]

theorem pop (r : Nat) : Statement (.pop r) := fun h => by
  have hr := toNat_operandByte (h r (by simp [Instr.registerOperands]))
  simp [assemble, Instr.mnemonic, Instr.operandBytes, hr]

theorem call (r : Nat) : Statement (.call r) := fun h => by
  have hr := toNat_operandByte (h r (by simp [Instr.registerOperands]))
  simp [assemble, Instr.mnemonic, Instr.operandBytes, hr]

theorem ret : Statement .ret := fun _ => rfl

theorem add (a b : Nat) : Statement (.add a b) := fun h => by
  have ha := toNat_operandByte (h a (by simp [Instr.registerOperands]))
  have hb := toNat_operandByte (h b (by simp [Instr.registerOperands]))
  simp [assemble, Instr.mnemonic, Instr.operandBytes, ha, hb]

theorem sub (a b : Nat) : Statement (.sub a b) := fun h => by
  have ha := toNat_operandByte (h a (by simp [Instr.registerOperands]))
  have hb := toNat_operandByte (h b (by simp [Instr.registerOperands]))
  simp [assemble, Instr.mnemonic, Instr.operandBytes, ha, hb]

theorem mul (a b : Nat) : Statement (.mul a b) := fun h => by
  have ha := toNat_operandByte (h a (by simp [Instr.registerOperands]))
  have hb := toNat_operandByte (h b (by simp [Instr.registerOperands]))
  simp [assemble, Instr.mnemonic, Instr.operandBytes, ha, hb]

theorem div (a b : Nat) : Statement (.div a b) := fun h => by
  have ha := toNat_operandByte (h a (by simp [Instr.registerOperands]))
  have hb := toNat_operandByte (h b (by simp [Instr.registerOperands]))
  simp [assemble, Instr.mnemonic, Instr.operandBytes, ha, hb]

end AssembleOperands

/-! ## The opcode table -/

/-- The handler a lookup finds has that opcode byte. -/
theorem opcodeOf_of_lookup {m : OpcodeMap} {op : Byte} {h : Mnemonic} (hl : m.lookup op = some h) : m.opcodeOf h = op := by
  have := List.find?_some hl
  simpa using this

/-- Every handler is found by its opcode byte where the eleven bytes are distinct. -/
theorem lookup_opcodeOf {m : OpcodeMap} (hm : m.distinct) (h : Mnemonic) : m.lookup (m.opcodeOf h) = some h := by
  simp only [OpcodeMap.distinct, OpcodeMap.bytes, List.nodup_cons, List.mem_cons, List.not_mem_nil, or_false, not_or,
    List.nodup_nil, not_false_eq_true, and_true] at hm
  cases h <;> simp [OpcodeMap.lookup, allMnemonics, List.find?, OpcodeMap.opcodeOf, hm]

/-- An instruction's operand bytes are as many as its handler reads. -/
theorem length_operandBytes (i : Instr) : i.operandBytes.length = i.mnemonic.operandCount := by
  cases i <;> rfl

end Sys2Proof.Laws
end

