-- ==== Sys2Proof/Machine/Flags.lean ====
section
/-! DEFINITION. Flag computations: there are none. "The CORE has no flags, condition codes or predicates. No instruction sets
or tests a flag." (10_state.md R35); a carry or borrow "is discarded and recorded nowhere" (44_alu.md R193, R194). The file
stands so that this absence is stated where a flag computation would be looked for; it declares nothing. -/
end

