-- ==== Sys2Proof/Tests/Slice0.lean ====
section
/-! SUPPORT. The model's own tests: the well-formedness smoke, words written out bit by bit, one step of each instruction
(expected results from spec/95_test_vectors.md, the vector named in each comment), and a witness for the hypotheses of each
statement, at the boundary values of each clause. -/

namespace Sys2Proof.Tests

open Sys2Proof.Machine

/-! ## Small states -/

/-- The next state of a result, if it is one. -/
def nextOf : Result → Option State
  | .next t => some t
  | .fault _ => none
  | .refused _ => none

/-- A Running CORE with the program bytes at address 0. -/
def loaded (capacity programEnd : Nat) (bytes : List Byte) : State :=
  { State.construct capacity with
    mem := Memory.storeBytes 0 bytes (State.construct capacity).mem
    programEnd := programEnd
    runState := .running }

/-- A state with one register set. -/
def withReg (r : Fin 8) (v : Byte) (s : State) : State := { s with regs := s.regs.set r v }

/-- A state with one memory byte set and a depth. -/
def withTop (addr : Nat) (v : Byte) (depth : Nat) (s : State) : State :=
  { s with mem := s.mem.set addr v, stackDepth := depth }

/-- The kind and the value a step's fault record holds. -/
def faultOf (r : Result) : Option (FaultKind × Nat × Int) :=
  match r with
  | .next t => t.fault.map (fun f => (f.kind, f.ip, f.value))
  | .fault _ => none
  | .refused _ => none

/-! ## Well-formedness: each check refuses an ill-formed term -/

theorem test_wellFormed_refuses_r_256 : ¬ (Instr.ldi 256 0).wellFormed := by decide
theorem test_wellFormed_refuses_b_256 : ¬ (Instr.add 0 256).wellFormed := by decide
theorem test_wellFormed_accepts_255 : (Instr.add 255 8).wellFormed := by decide
theorem test_opcodeMap_refuses_other_ldi : ¬ ({ defaultOpcodes with ldi := 0x83 } : OpcodeMap).wellFormed := by decide
theorem test_opcodeMap_refuses_a_double : ¬ ({ defaultOpcodes with pop := 0x45 } : OpcodeMap).wellFormed := by decide
theorem test_defaultOpcodes_wellFormed : defaultOpcodes.wellFormed := by decide
theorem test_memory_refuses_unsorted : ¬ ({ capacity := 9, cells := [(2, 1), (1, 1)] } : Memory).wf := by decide
theorem test_memory_refuses_listed_zero : ¬ ({ capacity := 9, cells := [(2, 0)] } : Memory).wf := by decide
theorem test_memory_refuses_beyond : ¬ ({ capacity := 9, cells := [(9, 1)] } : Memory).wf := by decide
theorem test_reset_memory_wf : State.reset.mem.wf := by decide

/-! ## Decoding, one word per constructor, from 30_encoding.md R81, R87, R88 -/

theorem test_decode_hlt : decode [0b00000001] = .ok (.hlt, []) := rfl
theorem test_decode_ldi : decode [0b10000010, 0b00000111, 0b11111110] = .ok (.ldi 7 254, []) := rfl
theorem test_decode_prn : decode [0b01000111, 0b00000011] = .ok (.prn 3, []) := rfl
theorem test_decode_push : decode [0b01000101, 0b10000000] = .ok (.push 128, []) := rfl
theorem test_decode_pop : decode [0b01000110, 0b00000001] = .ok (.pop 1, []) := rfl
theorem test_decode_call : decode [0b01010000, 0b00000010] = .ok (.call 2, []) := rfl
theorem test_decode_ret : decode [0b00010001, 0b00000000] = .ok (.ret, [0]) := rfl
theorem test_decode_add : decode [0b10100000, 0b00000001, 0b00000010] = .ok (.add 1 2, []) := rfl
theorem test_decode_sub : decode [0b10100001, 0b00000010, 0b00000001] = .ok (.sub 2 1, []) := rfl
theorem test_decode_mul : decode [0b10100010, 0b00000100, 0b00000101] = .ok (.mul 4 5, []) := rfl
theorem test_decode_div : decode [0b10100011, 0b00000110, 0b11111111] = .ok (.div 6 255, []) := rfl
theorem test_decode_illegal : decode [0x83, 0, 0] = .error (.illegalOpcode 0x83) := rfl
theorem test_decode_short : decode [0x82, 0x09] = .error (.missingOperand 2) := rfl
theorem test_tableWord_second_byte_is_bits_15_8 : decodeTableWord 16 0x0347 = some (.prn 3) := rfl
theorem test_tableWord_bits_above_nbits_are_zero : decodeTableWord 8 0xFFFF82 = some (.ldi 0 0) := rfl
theorem test_asm : (Instr.ldi 0 8).asm = "LDI R0,8" := by decide

/-! ## One step of each instruction -/

/-- H2: pc stays, items stay on the stack. -/
theorem test_hlt : (nextOf (step { loaded 16 4 [0, 0, 0, 0, 0, 0, 0, 1] with pc := 7, stackDepth := 2 })).map
    (fun t => (t.runState, t.pc, t.stackDepth, t.fault)) = some (.halted, 7, 2, none) := by decide

/-- L1. -/
theorem test_ldi : (nextOf (step (loaded 16 3 [0x82, 0x07, 0xFF]))).map (fun t => (t.regs[7], t.pc)) = some (255, 3) := by
  decide
/-- L4. -/
theorem test_ldi_bad_register : faultOf (step (loaded 16 3 [0x82, 0xFF, 0x00])) = some (.invalidRegister, 0, 255) := by decide

/-- P1v. -/
theorem test_prn : (nextOf (step { withReg 7 200 (loaded 16 6 [0, 0, 0, 0, 0x47, 0x07]) with pc := 4 })).map
    (fun t => (t.events, t.pc)) =
    some ([.print 4 (some 0x47) #v[0, 0, 0, 0, 0, 0, 0, 200] 200], 6) := by decide
/-- P3v: no Print, one Fault event. -/
theorem test_prn_bad_register : (nextOf (step (loaded 16 2 [0x47, 0x08]))).map (fun t => t.events) =
    some [.fault 0 (some 0x47) (Vector.replicate 8 0) .invalidRegister 8] := by decide

/-- U3. -/
theorem test_push : (nextOf (step { withReg 1 3 (loaded 8 4 [0x45, 0x01]) with stackDepth := 1 })).map
    (fun t => (t.mem.read 6, t.mem.read 7, t.stackDepth, t.pc)) = some (.ok 3, .ok 0, 2, 2) := by rfl
/-- U4: the write address 5 is recorded, and 5 is unchanged. -/
theorem test_push_overflow : faultOf (step { withReg 1 3 (loaded 8 4 [0x45, 0x01]) with stackDepth := 2 }) =
    some (.stackOverflow, 0, 5) := by decide

/-- O4. -/
theorem test_pop : (nextOf (step (withTop 9998 4 2 (withTop 9999 6 1 (loaded 10000 2 [0x46, 0x00]))))).map
    (fun t => (t.regs[0], t.mem.byteAt 9998, t.mem.byteAt 9999, t.stackDepth)) = some (4, 0, 6, 1) := by decide
/-- O3: the register is checked before the pop. -/
theorem test_pop_bad_register : (nextOf (step (withTop 9999 7 1 (loaded 10000 2 [0x46, 0x08])))).map
    (fun t => (t.fault.map FaultRecord.kind, t.stackDepth, t.mem.byteAt 9999)) = some (some .invalidRegister, 1, 7) := by decide

/-- K1. -/
theorem test_call : (nextOf (step { withReg 2 12 (loaded 10000 21 [0, 0, 0, 0, 0, 0, 0, 0, 0, 0x50, 0x02]) with pc := 9 })).map
    (fun t => (t.mem.byteAt 9999, t.stackDepth, t.pc)) = some (9, 1, 12) := by decide
/-- K5: ReturnAddressRange comes before StackOverflow. -/
theorem test_call_range_first : faultOf (exec (.call 0) { State.construct 400 with pc := 300, programEnd := 396, stackDepth := 2 }) =
    some (.returnAddressRange, 300, 300) := by decide

/-- T3v. -/
theorem test_ret : (nextOf (step (withTop 9999 255 1 (loaded 10000 1 [0x11])))).map
    (fun t => (t.pc, t.stackDepth, t.mem.byteAt 9999)) = some (257, 0, 0) := by decide
/-- T2v. -/
theorem test_ret_underflow : faultOf (step (loaded 10000 1 [0x11])) = some (.stackUnderflow, 0, 0) := by decide

/-- A2. -/
theorem test_add : (nextOf (step (withReg 1 100 (withReg 0 200 (loaded 16 3 [0xA0, 0, 1]))))).map
    (fun t => (t.regs[0], t.regs[1], t.pc)) = some (44, 100, 3) := by decide
/-- A5: the source is also the destination. -/
theorem test_add_same : (nextOf (step (withReg 0 128 (loaded 16 3 [0xA0, 0, 0])))).map (fun t => t.regs[0]) = some 0 := by decide
/-- A7. -/
theorem test_sub : (nextOf (step (withReg 1 10 (withReg 0 5 (loaded 16 3 [0xA1, 0, 1]))))).map (fun t => t.regs[0]) =
    some 251 := by decide
/-- F10: `a` before `b`. -/
theorem test_add_bad_registers : faultOf (step (loaded 16 3 [0xA0, 8, 9])) = some (.invalidRegister, 0, 8) := by decide
/-- A12. -/
theorem test_mul : (nextOf (step (withReg 1 255 (withReg 0 255 (loaded 16 3 [0xA2, 0, 1]))))).map (fun t => t.regs[0]) =
    some 1 := by decide
/-- A15. -/
theorem test_div : (nextOf (step (withReg 1 2 (withReg 0 7 (loaded 16 3 [0xA3, 0, 1]))))).map (fun t => t.regs[0]) =
    some 3 := by decide
/-- A20: the divisor's register index is recorded. -/
theorem test_div_by_zero : faultOf (step (withReg 0 5 (loaded 16 3 [0xA3, 0, 4]))) = some (.divisionByZero, 0, 4) := by decide

/-! ## Fetch, decode, precedence, the host's ports -/

/-- F4: the opcode byte of the event is absent. -/
theorem test_fetch_beyond : (nextOf (step { loaded 16 0 [] with pc := 16 })).map (fun t => t.events) =
    some [.fault 16 none (Vector.replicate 8 0) .outOfBounds 16] := by decide
/-- F8: illegal before the operand bounds. -/
theorem test_illegal_before_operands : faultOf (step (loaded 1 1 [0x84])) = some (.illegalInstruction, 0, 0x84) := by decide
/-- F9: the operand bounds before the register check. -/
theorem test_operands_before_registers : faultOf (step (loaded 2 2 [0x82, 9])) = some (.outOfBounds, 0, 2) := by decide
/-- F7: the lowest missing operand address. -/
theorem test_lowest_missing_operand : faultOf (step (loaded 1 1 [0xA0])) = some (.outOfBounds, 0, 1) := by decide
/-- A22. -/
theorem test_alu_unknown_tag : aluApply 4 1 1 = .error .unsupportedOperation := rfl
/-- U5. -/
theorem test_push_one_byte_memory : push 1 (State.construct 1) = .error ⟨.stackOverflow, 0⟩ := rfl
/-- Q2. -/
theorem test_load_too_long : loadBytes 8 [1, 2, 3] (State.construct 10) = .error (.outOfBounds 10) := rfl
/-- Q5. -/
theorem test_load_beyond : loadBytes 12 [1] (State.construct 10) = .error (.outOfBounds 12) := rfl
/-- Q3. -/
theorem test_load_empty_at_the_end : (loadBytes 10 [] (State.construct 10)).map (fun t => t.programEnd) = .ok 10 := rfl
theorem test_construct_zero : hostConstruct 0 = none := rfl
theorem test_reset_waits : step State.reset = .fault .noStepWhileIdle := rfl
/-- The host's placing of LDI R0,8 at reset. -/
theorem test_withFetchWord : (nextOf (step (State.reset.withFetchWord 24 0x080082))).map (fun t => (t.regs[0], t.pc)) =
    some (8, 3) := by decide
theorem test_fault_codes : [FaultKind.outOfBounds, .invalidRegister, .stackOverflow, .stackUnderflow, .illegalInstruction,
    .unsupportedOperation, .divisionByZero, .returnAddressRange].map FaultKind.code = [1, 2, 3, 4, 5, 6, 7, 8] := rfl
theorem test_runState_codes : [RunState.idle, .running, .halted].map RunState.code = [0, 1, 2] := rfl

/-! ## Witnesses: the hypotheses of the statements can be met -/

/-- A Running CORE of 16 bytes, `program_end` 4, with the whole stack space of ten items used: the next push overflows. -/
def full : State := { loaded 16 4 [0x45, 0x01, 0x50, 0x01] with stackDepth := 10 }
/-- The same with one slot left. -/
def almostFull : State := { full with stackDepth := 9 }
/-- A state no run reaches: more items than bytes. -/
def overfull : State := { full with stackDepth := 17 }
/-- A Running CORE with a two-byte memory that holds an opcode at its last byte. -/
def atTheEnd (op : Byte) : State := { loaded 2 2 [0, op] with pc := 1 }
/-- A Running CORE with a three-byte memory: the second operand byte is the missing one. -/
def secondMissing (op : Byte) : State := { loaded 3 3 [0, op, 0] with pc := 1 }

theorem witness_ConstructionValues : (9999 < 10000) ∧ (10000 ≤ 10000) ∧ (0 : Nat) < 1 := by decide
theorem witness_MemoryReadAndWriteContract : (full.mem.inBounds 0 ∧ full.mem.inBounds 15) ∧
    (¬ full.mem.inBounds (-1) ∧ ¬ full.mem.inBounds 16) ∧ push 7 full = .error ⟨.stackOverflow, 5⟩ := ⟨by decide, by decide, rfl⟩
theorem witness_CanonicalMemoriesWithEqualReadsAreEqual : full.mem.wf ∧ (full.mem.set 9 1).wf ∧
    ∀ a : Int, full.mem.read a = full.mem.read a := ⟨by decide, by decide, fun _ => rfl⟩
theorem witness_PushContract : full.sp - 1 ≤ full.programEnd ∧ ¬ almostFull.sp - 1 ≤ almostFull.programEnd := by decide
theorem witness_PopContract : (loaded 16 4 []).stackDepth = 0 ∧ (0 < almostFull.stackDepth ∧
    almostFull.stackDepth ≤ almostFull.mem.capacity) := by decide
theorem witness_PopBeyondTheCapacity : overfull.mem.capacity < overfull.stackDepth ∧ (7 : Nat) < 8 := by decide
/-- The boundary: depth equal to the capacity still pops. -/
theorem witness_PopContract_boundary : ({ full with stackDepth := 16 } : State).stackDepth ≤ full.mem.capacity ∧
    ((pop { full with stackDepth := 16 }).map (fun p => p.1)) = .ok 0x45 := ⟨by decide, rfl⟩
theorem witness_StackIsLastInFirstOut : ∃ t, pushAll [3, 5] (loaded 16 4 []) = .ok t := ⟨_, rfl⟩
theorem witness_DecodeOfEncodeIsIdentity : defaultOpcodes.wellFormed ∧ (Instr.add 255 0).wellFormed := by decide
theorem witness_EncodeOfDecodeIsIdentity : decodeWith defaultOpcodes [0x47, 0xFF, 9] = .ok (.prn 255, [9]) := rfl
theorem witness_LengthComesFromTheOpcode : decodeWith defaultOpcodes [0x47, 1] = .ok (.prn 1, []) ∧
    decodeWith defaultOpcodes [0x47, 2, 9] = .ok (.prn 2, [9]) := ⟨rfl, rfl⟩
theorem witness_OtherOpcodesAreIllegal : (0x02 : Byte) ∉ ([0x01, 0x11, 0x45, 0x46, 0x47, 0x50, 0x82, 0xA0, 0xA1, 0xA2, 0xA3] :
    List Byte) ∧ (0xA3 : Byte) ∈ ([0x01, 0x11, 0x45, 0x46, 0x47, 0x50, 0x82, 0xA0, 0xA1, 0xA2, 0xA3] : List Byte) ∧
    (loaded 1 1 [0x02]).runState = .running ∧ (loaded 1 1 [0x02]).mem.read ((loaded 1 1 [0x02]).pc : Int) = .ok 0x02 :=
  ⟨by decide, by decide, rfl, rfl⟩
theorem witness_StepRunsTheDecodedInstruction : full.runState = .running ∧
    (∀ (k : Nat) (h : k < [(0x45 : Byte), 0x01].length), full.mem.read ((full.pc : Int) + k) = .ok [(0x45 : Byte), 0x01][k]) ∧
    decodeWith defaultOpcodes [0x45, 0x01] = .ok (.push 1, []) := by
  refine ⟨rfl, fun k h => ?_, rfl⟩
  match k, h with
  | 0, _ => rfl
  | 1, _ => rfl
theorem witness_FetchBeyondMemoryFaults : ({ full with pc := 16 } : State).runState = .running ∧ full.mem.capacity ≤ 16 := by decide
theorem witness_DecodeAndOperandFaults :
    ((loaded 1 1 [0x02]).mem.read 0 = .ok 0x02 ∧ defaultOpcodes.lookup 0x02 = none) ∧
    ((atTheEnd 0xA0).mem.read 1 = .ok 0xA0 ∧ defaultOpcodes.lookup 0xA0 = some .add ∧
      (atTheEnd 0xA0).mem.capacity ≤ 1 + Mnemonic.add.operandCount) ∧
    ((secondMissing 0xA0).mem.read 1 = .ok 0xA0 ∧ (secondMissing 0xA0).mem.capacity ≤ 1 + Mnemonic.add.operandCount) :=
  ⟨⟨rfl, rfl⟩, ⟨rfl, rfl, by decide⟩, rfl, by decide⟩
theorem witness_NoStepUnlessRunning : State.reset.runState ≠ .running ∧
    ({ full with runState := .halted } : State).runState = .halted := by decide
theorem witness_RunningCoreAlwaysSteps : full.runState = .running := rfl
theorem witness_PlacedWordRunsNext : State.reset.pc + 3 ≤ State.reset.mem.capacity ∧ ({ full with pc := 13 } : State).pc + 3 ≤
    full.mem.capacity ∧ decodeTableWord 8 0x11 = some .ret := ⟨by decide, by decide, rfl⟩
theorem witness_HltRule : (loaded 1 1 [1]).runState = .running ∧ (loaded 1 1 [1]).mem.read ((loaded 1 1 [1]).pc : Int) = .ok 0x01 :=
  ⟨rfl, rfl⟩
/-- The register numbers on both sides of the check of every register operand: 7 is a register, 8 and 255 are not. -/
theorem witness_register_clauses : (7 < 8) ∧ (8 ≤ 8) ∧ (8 : Nat) ≤ 255 := by decide
/-- A missing operand byte: the first, and the second, for every opcode that has one. -/
theorem witness_raisesOnMissingOperand : ∀ op ∈ ([0x82, 0x47, 0x45, 0x46, 0x50, 0xA0, 0xA1, 0xA2, 0xA3] : List Byte),
    (atTheEnd op).runState = .running ∧ (atTheEnd op).opcodeByte = some op ∧ (atTheEnd op).mem.capacity ≤ (atTheEnd op).pc + 1 ∧
    (secondMissing op).opcodeByte = some op ∧ (secondMissing op).mem.capacity ≤ (secondMissing op).pc + 2 ∧
    ¬ (secondMissing op).mem.capacity ≤ (secondMissing op).pc + 1 := by decide
theorem witness_PrnRule : full.mem.read (full.pc : Int) = .ok 0x45 := rfl
theorem witness_PushRule : (1 : Nat) < 8 ∧ ¬ almostFull.sp - 1 ≤ almostFull.programEnd ∧ full.sp - 1 ≤ full.programEnd := by decide
theorem witness_PopRule : (7 : Nat) < 8 ∧ (0 < almostFull.stackDepth ∧ almostFull.stackDepth ≤ almostFull.mem.capacity) ∧
    (loaded 16 4 []).stackDepth = 0 := by decide
theorem witness_PushThenPopMovesTheValue : (1 : Nat) < 8 ∧ (2 : Nat) < 8 ∧ ¬ almostFull.sp - 1 ≤ almostFull.programEnd := by decide
theorem witness_CallRule : (({ almostFull with pc := 255 } : State).pc ≤ 255 ∧ ¬ almostFull.sp - 1 ≤ almostFull.programEnd) ∧
    (255 < ({ full with pc := 256 } : State).pc) ∧ (full.pc ≤ 255 ∧ full.sp - 1 ≤ full.programEnd) := by decide
theorem witness_RetRule : (0 < almostFull.stackDepth ∧ almostFull.stackDepth ≤ almostFull.mem.capacity) ∧
    (loaded 1 1 [0x11]).mem.read ((loaded 1 1 [0x11]).pc : Int) = .ok 0x11 ∧ (loaded 1 1 [0x11]).stackDepth = 0 :=
  ⟨by decide, rfl, by decide⟩

/-- A caller at address 2 whose target, address 4, holds LDI R0,8. -/
def caller : State := { withReg 1 4 (loaded 32 8 [0, 0, 0x50, 0x01, 0x82, 0x00, 0x08, 0x11]) with pc := 2 }
/-- The callee's first state, and its last after the LDI, at its RET. -/
def entered : State := (nextOf (step caller)).getD caller
def returning : State := (nextOf (step entered)).getD caller

theorem witness_ReturnResumesAfterTheCall : caller.fault = none ∧ exec (.call 1) caller = .next entered ∧ entered.fault = none ∧
    StaysAbove defaultOpcodes entered.stackDepth entered returning ∧ returning.stackDepth = entered.stackDepth := by
  refine ⟨rfl, rfl, rfl, ?_, rfl⟩
  exact .step (t := returning) (by decide) rfl (.done (by decide))

theorem witness_AluApply : (0 : Byte) = 0 ∧ (1 : Byte) ≠ 0 ∧ 4 ≤ (4 : BitVec 8).toNat ∧ 4 ≤ (255 : BitVec 8).toNat := by decide
theorem witness_UnsupportedOperationNeverFromAStep : full.fault = none ∧ stepWith defaultOpcodes full =
    .next (full.afterFault (some 0x45) .stackOverflow 5) := ⟨rfl, rfl⟩
theorem witness_DivRule : (withReg 3 1 full).regs[3] ≠ 0 ∧ full.regs[3] = 0 := by decide
theorem witness_FrameOfTheInstructionsThatStoreNothing : (Instr.ldi 0 1).mnemonic ∈ [Mnemonic.hlt, .ldi, .prn, .add, .sub, .mul, .div] ∧
    exec .hlt full = .next { full with runState := .halted } ∧ (Instr.ldi 0 1).registerOperands.head? ≠ some 1 :=
  ⟨by decide, rfl, by decide⟩
theorem witness_FrameOfTheInstructionsThatStore : (Instr.call 1).mnemonic ∈ [Mnemonic.push, .call] ∧
    (Instr.ret).mnemonic ∈ [Mnemonic.pop, .ret] ∧ (nextOf (exec (.call 1) almostFull)).isSome ∧
    (nextOf (exec (.pop 1) almostFull)).isSome := by decide
/-- A destination not read, with completion and with a fault (POP of an empty stack), and registers neither read nor written. -/
theorem witness_OnlyTheRegistersReadMatter : (0 : Nat) ∉ registersRead (.ldi 0 1) ∧ (7 : Nat) ∉ registersRead (.prn 0) ∧
    (2 : Nat) ∉ registersRead (.add 0 1) ∧ (nextOf (exec (.ldi 0 1) full)).map (fun t => t.fault) = some none ∧
    (Instr.ldi 0 1).registerOperands.head? = some 0 ∧ (Instr.pop 7).registerOperands.head? = some 7 ∧
    (loaded 16 4 []).fault = none ∧ faultOf (exec (.pop 7) (loaded 16 4 [])) = some (.stackUnderflow, 0, 0) ∧
    (Instr.prn 0).registerOperands.head? ≠ some 7 := by decide
theorem witness_ProgramCounterTable : caller.fault = none ∧ stepWith defaultOpcodes caller = .next entered ∧
    fetchInstr defaultOpcodes caller = .ok (.call 1) ∧ entered.fault = none := ⟨rfl, rfl, rfl, rfl⟩
theorem witness_faulting_step : full.fault = none ∧ stepWith defaultOpcodes full =
    .next (full.afterFault (some 0x45) .stackOverflow 5) ∧ (full.afterFault (some 0x45) .stackOverflow 5).fault ≠ none :=
  ⟨rfl, rfl, by decide⟩

theorem constructed_inv (C : Nat) (h : 1 ≤ C) : (State.construct C).Inv :=
  ⟨h, ⟨List.Pairwise.nil, by simp [State.construct]⟩, Nat.zero_le _, Nat.zero_le _, fun _ => rfl, fun h => absurd rfl h, by
    simp [State.construct]⟩

/-- A Running state with the invariant, a full stack, and a step from it. -/
theorem full_inv : full.Inv :=
  ⟨by decide, by decide, by decide, by decide, by decide, by decide, fun r h => by cases h⟩

theorem witness_StackDepthChanges : full.Inv ∧ Steps defaultOpcodes caller entered ∧ caller.fault = none ∧
    exec (.call 1) caller = .next entered ∧ (Instr.call 1).mnemonic ∈ [Mnemonic.push, .call] ∧
    (Instr.hlt).mnemonic ∉ [Mnemonic.push, .call, .pop, .ret] :=
  ⟨full_inv, .step rfl .refl, rfl, rfl, by decide, by decide⟩
theorem witness_RunStateTransitions : State.reset.runState = .idle ∧ (caller.fault = none ∧
    stepWith defaultOpcodes caller = .next entered) ∧ ({ full with runState := .halted } : State).runState = .halted :=
  ⟨rfl, ⟨rfl, rfl⟩, rfl⟩
theorem witness_FaultRecordIsSetOnceWithTheHalt : (fetchInstr defaultOpcodes (loaded 1 1 [1]) = .ok .hlt ∧
    (loaded 1 1 [1]).fault = none ∧ (nextOf (step (loaded 1 1 [1]))).map (fun t => t.runState) = some .halted) ∧
    (full.Inv ∧ Steps defaultOpcodes full (full.afterFault (some 0x45) .stackOverflow 5) ∧
      (full.afterFault (some 0x45) .stackOverflow 5).fault = some ⟨.stackOverflow, full.pc, 5⟩) ∧
    (∃ t, loadBytes 0 [1] State.reset = .ok t) ∧ ∃ t, startRun 0 State.reset = some t :=
  ⟨⟨rfl, rfl, rfl⟩, ⟨full_inv, .step rfl .refl, rfl⟩, ⟨_, rfl⟩, _, rfl⟩
theorem witness_EventsOfAStep : (loaded 2 2 [0x47, 7]).fault = none ∧ fetchInstr defaultOpcodes (loaded 2 2 [0x47, 7]) = .ok (.prn 7) ∧
    (nextOf (stepWith defaultOpcodes (loaded 2 2 [0x47, 7]))).map (fun t => t.fault) = some none ∧
    ∀ r, fetchInstr defaultOpcodes caller ≠ .ok (.prn r) := ⟨rfl, rfl, by decide, fun r h => by cases h⟩
theorem witness_ObserverPortIsOutputOnly : stepWith defaultOpcodes caller = .next entered := rfl
theorem witness_ProgramEndIsReadOnlyByPushAndCall : (∃ t, loadBytes 0 [1] State.reset = .ok t) ∧
    stepWith defaultOpcodes caller = .next entered ∧ (Instr.pop 0).mnemonic ∉ [Mnemonic.push, .call] ∧
    (nextOf (exec (.pop 0) full)).isSome := ⟨⟨_, rfl⟩, rfl, by decide, by decide⟩
theorem witness_EveryStepKeepsTheInvariant : full.Inv ∧ ∃ t, stepWith defaultOpcodes full = .next t := ⟨full_inv, _, rfl⟩
theorem witness_HostOperationsKeepTheInvariant : State.reset.Inv ∧ (∃ t, loadBytes 0 [1] State.reset = .ok t) ∧
    ∃ t, startRun 0 State.reset = some t := ⟨constructed_inv _ (by decide), ⟨_, rfl⟩, _, rfl⟩
theorem witness_ProgramCounterStaysInRange : (withTop 31 255 1 { caller with pc := 7 }).pcInRange ∧
    (nextOf (stepWith defaultOpcodes (withTop 31 255 1 { caller with pc := 7 }))).map (fun t => t.pc) = some 257 := by decide
theorem witness_StackStaysAboveTheProgramAfterAPush : caller.fault = none ∧ exec (.call 1) caller = .next entered ∧
    entered.fault = none := ⟨rfl, rfl, rfl⟩
theorem witness_ProgramImageIsNeverWritten : full.Inv ∧ Steps defaultOpcodes full (full.afterFault (some 0x45) .stackOverflow 5) ∧
    (5 : Int) < (full.programEnd : Int) + 2 ∧ ∃ t, startRun 0 State.reset = some t :=
  ⟨full_inv, .step rfl .refl, by decide, _, rfl⟩
theorem witness_LoadBytesContract : (State.construct 10).runState = .idle ∧
    (0 < [(1 : Byte)].length ∧ 10 ≤ 9 + 2 - 1 ∧ 9 < 10) ∧ (10 : Nat) ≤ 10 ∧ (10 : Nat) < 11 ∧ (7 : Nat) + 3 ≤ 10 ∧
    ((loadBytes 7 [1, 2, 3] (State.construct 10)).map (fun t => t.programEnd)) = .ok 10 :=
  ⟨rfl, by decide, by decide, by decide, by decide, rfl⟩
/-- An Idle CORE with HLT at address 0. -/
def idleHlt : State := { loaded 1 1 [1] with runState := .idle }
theorem witness_RunEndsHaltedByHltOrFault : full.runState ≠ .idle ∧ (idleHlt.runState = .idle ∧
    hostRun defaultOpcodes 1 0 idleHlt = .ok { loaded 1 1 [1] with runState := .halted } ∧
    StepsIn defaultOpcodes 1 (loaded 1 1 [1]) { loaded 1 1 [1] with runState := .halted }) ∧
    (∀ t, hostRun defaultOpcodes 1 0 (State.construct 16) ≠ .outOfFuel t) ∧
    hostRun defaultOpcodes 0 0 idleHlt = .outOfFuel (loaded 1 1 [1]) :=
  ⟨by decide, ⟨rfl, rfl, .step rfl .refl⟩, (fun t h => by cases h), rfl⟩

/-- CALL R1 at address `at_` with nothing on the stack of 16 bytes: its address goes to 15, and it jumps to `target`. Byte 14 is
the PRN opcode. -/
def callAt (at_ : Nat) (target : Byte) : State :=
  { withReg 1 target (withTop 14 0x47 0 (loaded 16 8 [0, 0x50, 1, 1])) with pc := at_ }
/-- The state after the CALL at address 1. -/
def calledFrom (target : Byte) : State := (nextOf (step (callAt 1 target))).getD (callAt 1 target)

/-- The byte stored, 1, as the opcode HLT at 15, and as the operand of the PRN at 14. -/
theorem witness_FetchSeesEveryEarlierWrite : StepsStoring defaultOpcodes [(15, 1)] (callAt 1 15) (calledFrom 15) ∧
    (calledFrom 15).runState = .running ∧ (calledFrom 15).pc = 15 ∧ decode [1] = .ok (.hlt, []) ∧
    (callAt 1 15).mem.readAfter [(15, 1)] 15 = .ok 1 ∧ StepsStoring defaultOpcodes [(15, 1)] (callAt 1 14) (calledFrom 14) ∧
    (calledFrom 14).pc = 14 ∧ (callAt 1 14).mem.readAfter [(15, 1)] 14 = .ok 0x47 ∧ decode [0x47, 1] = .ok (.prn 1, []) :=
  ⟨.step (stores := []) (i := .call 1) (s := callAt 1 15) rfl rfl rfl .refl, rfl, rfl, rfl, rfl,
    .step (stores := []) (i := .call 1) (s := callAt 1 14) rfl rfl rfl .refl, rfl, rfl, rfl⟩

/-- A RET from the stack region: the zero it leaves at 15 is the byte of the address it returns to, 13 + 2. -/
def returned : State := withTop 15 13 1 { loaded 16 8 [0x11] with pc := 0 }
theorem witness_FetchSeesEveryEarlierWrite_zero : StepsStoring defaultOpcodes [(15, 0)] returned
      ((nextOf (step returned)).getD returned) ∧ ((nextOf (step returned)).getD returned).pc = 15 ∧
    returned.mem.readAfter [(15, 0)] 15 = .ok 0 ∧ defaultOpcodes.lookup 0 = none :=
  ⟨.step (stores := []) (i := .ret) (s := returned) rfl rfl rfl .refl, rfl, rfl, rfl⟩

end Sys2Proof.Tests
end

section
/-! SUPPORT. 10_state.md: what a completing instruction leaves alone, where it puts `pc`, when it halts; what a step, a load and
the start of a run do to the fault record and to `program_end`; and the family's statements settled from these. -/

namespace Sys2Proof.Machine

variable {m : OpcodeMap} {i : Instr} {s t : State}

/-! ## What a completing instruction does to single fields -/

/-- No instruction that completes writes the fault record or `program_end`, and only HLT writes the run state. -/
theorem effect_frame (h : Effect i s t) :
    t.fault = s.fault ∧ t.programEnd = s.programEnd ∧ (i ≠ .hlt → t.runState = s.runState) := by
  cases i with
  | hlt => cases h; exact ⟨rfl, rfl, fun hi => absurd rfl hi⟩
  | ldi => obtain ⟨_, rfl⟩ := h; exact ⟨rfl, rfl, fun _ => rfl⟩
  | prn => obtain ⟨_, rfl⟩ := h; exact ⟨rfl, rfl, fun _ => rfl⟩
  | push => obtain ⟨_, _, rfl⟩ := h; exact ⟨rfl, rfl, fun _ => rfl⟩
  | pop => obtain ⟨_, _, _, rfl⟩ := h; exact ⟨rfl, rfl, fun _ => rfl⟩
  | call => obtain ⟨_, _, _, rfl⟩ := h; exact ⟨rfl, rfl, fun _ => rfl⟩
  | ret => obtain ⟨_, _, rfl⟩ := h; exact ⟨rfl, rfl, fun _ => rfl⟩
  | add => obtain ⟨_, _, _, _, rfl⟩ := h; exact ⟨rfl, rfl, fun _ => rfl⟩
  | sub => obtain ⟨_, _, _, _, rfl⟩ := h; exact ⟨rfl, rfl, fun _ => rfl⟩
  | mul => obtain ⟨_, _, _, _, rfl⟩ := h; exact ⟨rfl, rfl, fun _ => rfl⟩
  | div => obtain ⟨_, _, _, _, rfl⟩ := h; exact ⟨rfl, rfl, fun _ => rfl⟩

theorem effect_fault (h : Effect i s t) : t.fault = s.fault := (effect_frame h).1

theorem effect_programEnd (h : Effect i s t) : t.programEnd = s.programEnd := (effect_frame h).2.1

theorem effect_runState (h : Effect i s t) (hi : i ≠ .hlt) : t.runState = s.runState := (effect_frame h).2.2 hi

/-- The top slot of a stack within the capacity, read at `SP + 1` (10_state.md R30). -/
theorem read_sp_add_one (h0 : 0 < s.stackDepth) (hc : s.stackDepth ≤ s.mem.capacity) :
    s.mem.read (s.sp + 1) = .ok (s.mem.byteAt (s.mem.capacity - s.stackDepth)) := by
  have hsp := sp_eq s
  have ha : s.sp + 1 = ((s.mem.capacity - s.stackDepth : Nat) : Int) := by omega
  rw [ha, Memory.read_natCast, if_pos (by omega)]

/-! ## What a step does -/

/-- A step that answers a next state was taken while Running; it had the effect of the fetched instruction, or took a fault. -/
theorem stepWith_next_cases (h : stepWith m s = .next t) :
    s.runState = .running ∧ ((∃ i, fetchInstr m s = .ok i ∧ Effect i s t) ∨ ∃ e, t = takeFault e s) := by
  obtain ⟨hr, ⟨i, hf, hx⟩ | ⟨e, -, rfl⟩⟩ := stepWith_eq_next.1 h
  · rcases exec_next_cases hx with he | ⟨e, -, rfl⟩
    · exact ⟨hr, .inl ⟨i, hf, he⟩⟩
    · exact ⟨hr, .inr ⟨e, rfl⟩⟩
  · exact ⟨hr, .inr ⟨e, rfl⟩⟩

/-- A step that leaves no fault record had the effect of the instruction it fetched. -/
theorem effect_of_stepWith (h : stepWith m s = .next t) (ht : t.fault = none) :
    ∃ i, fetchInstr m s = .ok i ∧ Effect i s t := by
  obtain ⟨-, he | ⟨e, rfl⟩⟩ := stepWith_next_cases h
  · exact he
  · cases ht

/-- A step that sets the fault record is fault entry. -/
theorem takeFault_of_stepWith (hs : s.fault = none) (h : stepWith m s = .next t) (ht : t.fault ≠ none) :
    ∃ e, t = takeFault e s := by
  obtain ⟨-, ⟨i, -, he⟩ | he⟩ := stepWith_next_cases h
  · exact absurd ((effect_fault he).trans hs) ht
  · exact he

/-- A step that fetches HLT halts and does nothing else (41_basic.md R130). -/
theorem eq_of_stepWith_hlt (h : stepWith m s = .next t) (hf : fetchInstr m s = .ok .hlt) :
    t = { s with runState := .halted } := by
  obtain ⟨hr, -⟩ := stepWith_next_cases h
  rw [stepWith_of_fetch hr hf] at h
  cases h
  rfl

theorem stepWith_programEnd (h : stepWith m s = .next t) : t.programEnd = s.programEnd := by
  obtain ⟨-, ⟨i, -, he⟩ | ⟨e, rfl⟩⟩ := stepWith_next_cases h
  · exact effect_programEnd he
  · rfl

/-- A step halts exactly by HLT or by a fault; otherwise it stays Running (10_state.md R32). -/
theorem stepWith_runState (hs : s.fault = none) (h : stepWith m s = .next t) :
    (t.runState = .halted ∧ (fetchInstr m s = .ok .hlt ∨ t.fault ≠ none)) ∨
    (t.runState = .running ∧ fetchInstr m s ≠ .ok .hlt ∧ t.fault = none) := by
  obtain ⟨hr, ⟨i, hf, he⟩ | ⟨e, rfl⟩⟩ := stepWith_next_cases h
  · by_cases hi : i = .hlt
    · subst hi
      cases he
      exact .inl ⟨rfl, .inl hf⟩
    · refine .inr ⟨(effect_runState he hi).trans hr, ?_, (effect_fault he).trans hs⟩
      rw [hf]
      exact fun h => hi (Except.ok.inj h)
  · exact .inl ⟨rfl, .inr nofun⟩

theorem stepWith_ne_next_of_halted (hs : s.runState = .halted) : stepWith m s ≠ .next t := by
  intro h
  obtain ⟨hr, -⟩ := stepWith_next_cases h
  cases hs.symm.trans hr

/-! ## Runs -/

/-- No step follows a halt, so a run from a Halted state stays there. -/
theorem eq_of_steps_of_halted (h : Steps m s t) (hs : s.runState = .halted) : t = s := by
  cases h with
  | refl => rfl
  | step hst _ => exact absurd hst (stepWith_ne_next_of_halted hs)

/-- "A fault is recorded only with the halt" (10_state.md R33) is kept by a step on its own, without the rest of the
invariant. -/
theorem stepWith_keeps_fault_halted (hs : s.fault ≠ none → s.runState = .halted) (h : stepWith m s = .next t) :
    t.fault ≠ none → t.runState = .halted := by
  intro ht
  obtain ⟨-, ⟨i, -, he⟩ | ⟨e, rfl⟩⟩ := stepWith_next_cases h
  · exact absurd h (stepWith_ne_next_of_halted (hs (effect_fault he ▸ ht)))
  · rfl

theorem steps_keep_fault_halted (h : Steps m s t) (hs : s.fault ≠ none → s.runState = .halted) :
    t.fault ≠ none → t.runState = .halted := by
  induction h with
  | refl => exact hs
  | step hst _ ih => exact ih (stepWith_keeps_fault_halted hs hst)

/-! ## The host's load and the start of a run -/

/-- What a load that succeeds did: Idle, a range that fits, the bytes stored and `program_end` recorded
(70_reset_and_hazards.md R244). -/
theorem loadBytes_eq_ok {start : Nat} {bytes : List Byte} : loadBytes start bytes s = .ok t ↔
    s.runState = .idle ∧ start + bytes.length ≤ s.mem.capacity ∧
      t = { s with mem := Memory.storeBytes start bytes s.mem, programEnd := start + bytes.length } := by
  unfold loadBytes
  split
  · exact ⟨nofun, fun h => absurd h.1 ‹_›⟩
  · split
    · exact ⟨nofun, fun ⟨_, hfit, _⟩ => by omega⟩
    · split
      · exact ⟨nofun, fun ⟨_, hfit, _⟩ => by omega⟩
      · simp only [Except.ok.injEq]
        exact ⟨fun h => ⟨not_not.1 ‹_›, by omega, h.symm⟩, fun ⟨_, _, h⟩ => h.symm⟩

/-- What the start of a run does, and when there is one (70_reset_and_hazards.md R246). -/
theorem startRun_eq_some {startIp : Nat} : startRun startIp s = some t ↔
    s.runState = .idle ∧ t = { s with pc := startIp, runState := .running } := by
  unfold startRun
  by_cases hs : s.runState = .idle
  · rw [if_pos hs, Option.some.injEq]
    exact ⟨fun h => ⟨hs, h.symm⟩, fun h => h.2.symm⟩
  · rw [if_neg hs]
    exact ⟨nofun, fun h => absurd h.1 hs⟩

/-! ## `program_end` and the instructions that do not read it -/

/-- The computation does the same whatever `program_end` is, and leaves it as it is given (10_state.md R31). -/
def IgnoresProgramEnd (f : State → Except Trap State) : Prop :=
  ∀ (s : State) (p : Nat), f { s with programEnd := p } = (f s).map (fun t => { t with programEnd := p })

/-- Fault entry neither reads nor writes `program_end`, so a handler ignores it where its computation does. -/
theorem finish_of_ignoresProgramEnd {f : State → Except Trap State} (hf : IgnoresProgramEnd f) (p : Nat)
    (h : finish s (f s) = .next t) :
    finish { s with programEnd := p } (f { s with programEnd := p }) = .next { t with programEnd := p } := by
  rw [hf s p]
  rcases finish_eq_next.1 h with hok | ⟨e, herr, rfl⟩
  · rw [hok]; rfl
  · rw [herr]; rfl

/-- An advance after a computation changes nothing about `program_end`. -/
theorem ignoresProgramEnd_advance {f : State → Except Trap State} (hf : IgnoresProgramEnd f) (n : Nat) :
    IgnoresProgramEnd (fun s => do
      let t ← f s
      pure (t.advance n)) := by
  intro s p
  simp only [hf s p]
  cases f s <;> rfl

/-- A register check before a computation does not look at the state. -/
theorem ignoresProgramEnd_regOk {f : State → Except Trap State} (hf : IgnoresProgramEnd f) (r : Nat) :
    IgnoresProgramEnd (fun s => do
      regOk r
      f s) := by
  intro s p
  simp only [hf s p]
  cases regOk r <;> rfl

theorem readReg_withProgramEnd (r p : Nat) (s : State) : readReg r { s with programEnd := p } = readReg r s := rfl

theorem ignoresProgramEnd_writeReg (r : Nat) (v : Byte) : IgnoresProgramEnd (writeReg r v) := by
  intro s p
  unfold writeReg
  split <;> rfl

/-- A pop compares the depth with 0 and with the capacity, not with `program_end` (20_memory.md R61). -/
theorem pop_withProgramEnd (s : State) (p : Nat) :
    pop { s with programEnd := p } = (pop s).map (fun q => (q.1, { q.2 with programEnd := p })) := by
  simp only [pop_eq]
  split
  · rfl
  · split <;> rfl

theorem ignoresProgramEnd_arithmetic (tag : BitVec 8) (a b : Nat) : IgnoresProgramEnd (arithmetic tag a b) := by
  refine ignoresProgramEnd_regOk (ignoresProgramEnd_regOk (fun s p => ?_) b) a
  simp only [readReg_withProgramEnd]
  cases readReg a s with
  | error => rfl
  | ok x =>
    cases readReg b s with
    | error => rfl
    | ok y =>
      simp only [except_ok_bind]
      split
      · exact ignoresProgramEnd_writeReg a _ s p
      · rfl
      · rfl

/-- Every instruction but PUSH and CALL does the same whatever `program_end` is. -/
theorem exec_withProgramEnd (p : Nat) (hi : i.mnemonic ∉ [.push, .call]) (h : exec i s = .next t) :
    exec i { s with programEnd := p } = .next { t with programEnd := p } := by
  cases i with
  | push => simp [Instr.mnemonic] at hi
  | call => simp [Instr.mnemonic] at hi
  | hlt => cases h; rfl
  | ldi r imm8 =>
    exact finish_of_ignoresProgramEnd
      (ignoresProgramEnd_regOk (ignoresProgramEnd_advance (ignoresProgramEnd_writeReg r _) _) r) p h
  | prn r =>
    refine finish_of_ignoresProgramEnd (ignoresProgramEnd_regOk (f := fun s => do
      let v ← readReg r s
      pure ((emit (.print s.pc s.opcodeByte s.regs v) s).advance Mnemonic.prn.width)) (fun s p => ?_) r) p h
    simp only [readReg_withProgramEnd]
    cases readReg r s <;> rfl
  | pop r =>
    refine finish_of_ignoresProgramEnd (ignoresProgramEnd_regOk (f := fun s => do
      let popped ← pop s
      let t ← writeReg r popped.1 popped.2
      pure (t.advance Mnemonic.pop.width)) (fun s p => ?_) r) p h
    simp only [pop_withProgramEnd]
    cases pop s with
    | error => rfl
    | ok q => exact ignoresProgramEnd_advance (ignoresProgramEnd_writeReg r q.1) _ q.2 p
  | ret =>
    refine finish_of_ignoresProgramEnd (f := fun s => do
      let popped ← pop s
      pure (popped.2.jump (popped.1.toNat + Mnemonic.call.width))) (fun s p => ?_) p h
    simp only [pop_withProgramEnd]
    cases pop s <;> rfl
  | add a b => exact finish_of_ignoresProgramEnd (ignoresProgramEnd_advance (ignoresProgramEnd_arithmetic _ a b) _) p h
  | sub a b => exact finish_of_ignoresProgramEnd (ignoresProgramEnd_advance (ignoresProgramEnd_arithmetic _ a b) _) p h
  | mul a b => exact finish_of_ignoresProgramEnd (ignoresProgramEnd_advance (ignoresProgramEnd_arithmetic _ a b) _) p h
  | div a b => exact finish_of_ignoresProgramEnd (ignoresProgramEnd_advance (ignoresProgramEnd_arithmetic _ a b) _) p h

/-! ## The statements of the family -/

/-- Settles O1: no cell is listed, so every byte below the capacity reads 0. -/
theorem constructionValues : Obligations.ConstructionValues := by
  intro C
  refine ⟨fun a ha => ?_, fun a ha => ?_, fun k => ?_, rfl, rfl, rfl, rfl, rfl⟩
  · exact (Memory.read_natCast a).trans (if_pos ha)
  · exact (Memory.read_natCast a).trans (if_neg (Nat.not_lt.2 ha))
  · exact Vector.getElem_replicate k.isLt

/-- Settles O37: fault entry keeps `pc`, and a step that completes has the effect of the instruction it fetched. -/
theorem programCounterTable : Obligations.ProgramCounterTable := by
  intro m s t hs h
  refine ⟨fun ht => ?_, fun i hf ht => ?_⟩
  · obtain ⟨e, rfl⟩ := takeFault_of_stepWith hs h ht
    rfl
  · obtain ⟨j, hj, he⟩ := effect_of_stepWith h ht
    obtain rfl : j = i := Except.ok.inj (hj.symm.trans hf)
    cases j with
    | hlt => cases he; rfl
    | ldi => obtain ⟨_, rfl⟩ := he; rfl
    | prn => obtain ⟨_, rfl⟩ := he; rfl
    | push => obtain ⟨_, _, rfl⟩ := he; rfl
    | pop => obtain ⟨_, _, _, rfl⟩ := he; rfl
    | call => obtain ⟨hr, _, _, rfl⟩ := he; exact ⟨hr, rfl⟩
    | ret => obtain ⟨h0, hc, rfl⟩ := he; exact ⟨_, read_sp_add_one h0 hc, rfl⟩
    | add => obtain ⟨_, _, _, _, rfl⟩ := he; rfl
    | sub => obtain ⟨_, _, _, _, rfl⟩ := he; rfl
    | mul => obtain ⟨_, _, _, _, rfl⟩ := he; rfl
    | div => obtain ⟨_, _, _, _, rfl⟩ := he; rfl

/-- Settles O40, from the two ways a step can end (`stepWith_runState`). -/
theorem runStateTransitions : Obligations.RunStateTransitions := by
  refine ⟨fun ip s hs => ⟨_, startRun_eq_some.2 ⟨hs, rfl⟩, rfl⟩, fun m s t hs h => ?_,
    fun m s t hs => stepWith_ne_next_of_halted hs⟩
  refine ⟨(stepWith_next_cases h).1, ?_⟩
  rcases stepWith_runState hs h with ⟨ht, hby⟩ | ⟨ht, hne, hnone⟩
  · exact ⟨.inr ht, fun _ => hby, fun _ => ht⟩
  · refine ⟨.inl ht, fun hh => ?_, fun hby => ?_⟩
    · cases ht.symm.trans hh
    · exact (hby.elim hne (absurd hnone)).elim

/-- Settles O41: a record comes with the halt, along any run from a state with the invariant, and no step follows a halt. -/
theorem faultRecordIsSetOnceWithTheHalt : Obligations.FaultRecordIsSetOnceWithTheHalt := by
  refine ⟨fun _ => rfl, fun m s t hs h => ⟨fun record ht => ?_, fun hh => ⟨fun ht => ?_, fun hf => ?_⟩, fun hf => ?_⟩,
    fun m s t u record hinv hst ht htu => ?_, fun start bytes s t h => ?_, fun ip s t h => ?_⟩
  · obtain ⟨e, rfl⟩ := takeFault_of_stepWith hs h (by simp [ht])
    cases ht
    exact ⟨rfl, s.opcodeByte, takeFault_eq_afterFault s e, rfl⟩
  · rcases stepWith_runState hs h with ⟨-, hf | hne⟩ | ⟨hr, -, -⟩
    · exact hf
    · exact absurd ht hne
    · cases hr.symm.trans hh
  · rw [eq_of_stepWith_hlt h hf]
    exact hs
  · rw [eq_of_stepWith_hlt h hf]
  · have hhalt : t.runState = .halted := steps_keep_fault_halted hst hinv.fault_halted (by simp [ht])
    obtain rfl := eq_of_steps_of_halted htu hhalt
    exact ⟨ht, rfl⟩
  · obtain ⟨-, -, rfl⟩ := loadBytes_eq_ok.1 h
    rfl
  · obtain ⟨-, rfl⟩ := startRun_eq_some.1 h
    rfl

/-- Settles O44: the load records it, no effect and no fault entry writes it, and of the shared operations only `push` reads
it. -/
theorem programEndIsReadOnlyByPushAndCall : Obligations.ProgramEndIsReadOnlyByPushAndCall := by
  refine ⟨fun _ => rfl, fun start bytes s t h => ?_, fun m s t => stepWith_programEnd,
    fun i s t p => exec_withProgramEnd p⟩
  obtain ⟨-, -, rfl⟩ := loadBytes_eq_ok.1 h
  rfl

end Sys2Proof.Machine
end

section
/-! SUPPORT. 20_memory.md: one byte set in memory as a store of the statements, and the stack manager's push and pop settled from
what the two can do (`push_eq`, `pop_eq`). -/

namespace Sys2Proof.Machine

variable {s t : State}

/-- One byte set in bounds is a store at its address and nowhere else (20_memory.md R51). -/
theorem storedOnly_of_mem_eq_set {a : Nat} {addr : Int} {v : Byte} (ht : t.mem = s.mem.set a v) (ha : a < s.mem.capacity)
    (haddr : addr = a) : storedOnly s t addr v := by
  subst haddr
  unfold storedOnly
  rw [ht]
  exact ⟨(Memory.read_set ha).trans (if_pos rfl), fun b hb => (Memory.read_set ha).trans (if_neg hb)⟩

/-- Settles O4: the guard over integers is the one over naturals of `push_eq`, and a push that passes it sets one byte. -/
theorem pushContract : Obligations.PushContract := by
  intro v s addr
  have haddr : addr = (s.mem.capacity : Int) - 1 - s.stackDepth := rfl
  refine ⟨fun hfull => ?_, fun hroom => ?_⟩
  · exact push_eq_error.2 ⟨by omega, rfl⟩
  · have hc : s.programEnd + s.stackDepth + 2 < s.mem.capacity := by omega
    exact ⟨_, push_eq_ok.2 ⟨hc, rfl⟩, storedOnly_of_mem_eq_set rfl (by omega) (by omega), rfl⟩

/-- Settles O5: the now-current top slot is the address `C - depth` of `pop_eq_ok`, which lies in memory up to depth `C`;
`read_sp_add_one` says what it holds. -/
theorem popContract : Obligations.PopContract := by
  intro s addr
  have haddr : addr = (s.mem.capacity : Int) - 1 - (s.stackDepth - 1) := rfl
  refine ⟨fun hempty => ?_, fun h0 hc => ?_⟩
  · rw [pop_eq, if_pos hempty]
  · have hsp : addr = s.sp + 1 := by rw [sp_eq]; omega
    exact ⟨_, _, pop_eq_ok.2 ⟨h0, hc, rfl⟩, hsp ▸ read_sp_add_one h0 hc,
      storedOnly_of_mem_eq_set rfl (by omega) (by omega), rfl⟩

end Sys2Proof.Machine
end

section
/-! SUPPORT. 30_encoding.md: which opcode bytes have no handler, what the decoder and a step do with one, and the family's
statement on the 245 of them settled from these. -/

namespace Sys2Proof.Machine

variable {m : OpcodeMap} {op : Byte} {s : State}

/-- A byte has no handler exactly when it is none of the map's eleven. -/
theorem lookup_eq_none_iff : m.lookup op = none ↔ op ∉ m.bytes := by
  have hbytes : m.bytes = allMnemonics.map m.opcodeOf := rfl
  simp [OpcodeMap.lookup, hbytes]

/-- The decoder refuses an opcode as illegal exactly when it has no handler, whatever follows (40_dispatch.md R106). -/
theorem decodeWith_eq_illegalOpcode {rest : List Byte} :
    decodeWith m (op :: rest) = .error (.illegalOpcode op) ↔ m.lookup op = none := by
  cases hl : m.lookup op with
  | none => simp [decodeWith, hl]
  | some h => by_cases hlen : rest.length < h.operandCount <;> simp [decodeWith, hl, hlen]

/-- The opcode byte of an event is the byte fetched (60_exceptions.md R228). -/
theorem opcodeByte_of_read (hop : s.mem.read s.pc = .ok op) : s.opcodeByte = some op := by
  simp [State.opcodeByte, hop]

theorem decodeOpcode_of_lookup_none (hl : m.lookup op = none) :
    decodeOpcode m op = .error ⟨.illegalInstruction, op.toNat⟩ := by
  simp [decodeOpcode, hl]

/-- Fetching an opcode byte with no handler is fault entry with that byte (40_dispatch.md R102). -/
theorem stepWith_of_lookup_none (hr : s.runState = .running) (hop : s.mem.read s.pc = .ok op) (hl : m.lookup op = none) :
    stepWith m s = .next (s.afterFault (some op) .illegalInstruction op.toNat) := by
  have hfetch : fetchInstr m s = .error ⟨.illegalInstruction, op.toNat⟩ := by
    simp [fetchInstr, hop, decodeOpcode_of_lookup_none hl]
  rw [stepWith_of_fetch_error hr hfetch, takeFault_eq_afterFault, opcodeByte_of_read hop]

/-- A list of distinct bytes leaves `256 - l.length` byte values outside it (30_encoding.md R89). -/
theorem length_filter_byte_notMem {l : List Byte} (hl : l.Nodup) :
    ((List.range 256).filter (fun n => BitVec.ofNat 8 n ∉ l)).length = 256 - l.length := by
  have hin : ((List.range 256).filter (fun n => BitVec.ofNat 8 n ∈ l)).Perm (l.map BitVec.toNat) := by
    rw [List.perm_ext_iff_of_nodup (List.nodup_range.filter _) (hl.map BitVec.toNat_injective)]
    intro n
    simp only [List.mem_filter, List.mem_range, decide_eq_true_eq, List.mem_map]
    constructor
    · rintro ⟨hn, hmem⟩
      exact ⟨_, hmem, Nat.mod_eq_of_lt hn⟩
    · rintro ⟨b, hb, rfl⟩
      exact ⟨b.isLt, by simpa using hb⟩
  have hsplit := (List.range 256).length_eq_length_filter_add (fun n => decide (BitVec.ofNat 8 n ∈ l))
  rw [hin.length_eq, List.length_map, List.length_range] at hsplit
  simp only [decide_not]
  omega

/-- Settles O11: the eleven listed bytes are the default map's in another order, and a byte is illegal exactly when it has no
handler. -/
theorem otherOpcodesAreIllegal : Obligations.OtherOpcodesAreIllegal := by
  unfold Obligations.OtherOpcodesAreIllegal
  intro eleven
  have hperm : defaultOpcodes.bytes.Perm eleven := by decide
  have hnone (op : Byte) : defaultOpcodes.lookup op = none ↔ op ∉ eleven :=
    lookup_eq_none_iff.trans (not_congr hperm.mem_iff)
  refine ⟨length_filter_byte_notMem (l := eleven) (by decide), fun op hop => ⟨fun rest => ?_, fun s hr hread => ?_⟩,
    fun op hop rest hill => ?_⟩
  · exact decodeWith_eq_illegalOpcode.2 ((hnone op).2 hop)
  · exact stepWith_of_lookup_none hr hread ((hnone op).2 hop)
  · exact (hnone op).1 (decodeWith_eq_illegalOpcode.1 hill) hop

end Sys2Proof.Machine
end

section
/-! SUPPORT. 40_dispatch.md: the opcode byte of an event where the fetch found none, what a CORE that is not Running answers to a
step, a load and the start of a run, and the family's statements settled from these. -/

namespace Sys2Proof.Machine

variable {m : OpcodeMap} {s t : State}

/-- Where the fetch is beyond memory an event's opcode byte is absent (40_dispatch.md R101, 60_exceptions.md R228). -/
theorem opcodeByte_of_capacity_le (hpc : s.mem.capacity ≤ s.pc) : s.opcodeByte = none := by
  have hread : s.mem.read s.pc = .error ⟨.outOfBounds, s.pc⟩ := by
    rw [Memory.read_natCast, if_neg (by omega)]
  simp [State.opcodeByte, hread]

/-- A step is taken from Running only (40_dispatch.md R110). -/
theorem stepWith_ne_next_of_not_running (hs : s.runState ≠ .running) : stepWith m s ≠ .next t :=
  fun h => hs (stepWith_next_cases h).1

/-- Only an Idle CORE is loaded (70_reset_and_hazards.md R243). -/
theorem loadBytes_ne_ok_of_not_idle {start : Nat} {bytes : List Byte} (hs : s.runState ≠ .idle) :
    loadBytes start bytes s ≠ .ok t :=
  fun h => hs (loadBytes_eq_ok.1 h).1

/-- Only an Idle CORE is started (70_reset_and_hazards.md R246). -/
theorem startRun_eq_none_of_not_idle {startIp : Nat} (hs : s.runState ≠ .idle) : startRun startIp s = none :=
  Option.eq_none_iff_forall_ne_some.2 fun _ h => hs (startRun_eq_some.1 h).1

/-- A run that does not start answers NotIdle (70_reset_and_hazards.md R246). -/
theorem hostRun_of_startRun_none {fuel startIp : Nat} (h : startRun startIp s = none) :
    hostRun m fuel startIp s = .notIdle := by
  simp [hostRun, h]

/-- A CORE that is not Running is inspected as it is (70_reset_and_hazards.md R243). -/
theorem hostInspect_of_not_running (hs : s.runState ≠ .running) : hostInspect s = some s := if_neg hs

/-- Settles O39: a step that sets the record is fault entry (`takeFault_of_stepWith`), whose event holds the byte at `pc`. -/
theorem faultsArePrecise : Obligations.FaultsArePrecise := by
  intro m s t hs hstep ht
  obtain ⟨e, rfl⟩ := takeFault_of_stepWith hs hstep ht
  exact ⟨e.kind, e.value, s.opcodeByte, takeFault_eq_afterFault s e, fun _ => opcodeByte_of_read, opcodeByte_of_capacity_le⟩

/-- Settles O15: a step needs Running, a load and the start of a run need Idle, and Halted is neither. -/
theorem noStepUnlessRunning : Obligations.NoStepUnlessRunning := by
  refine ⟨fun m s t => stepWith_ne_next_of_not_running, fun m s hs => ?_⟩
  have hidle : s.runState ≠ .idle := by simp [hs]
  have hrunning : s.runState ≠ .running := by simp [hs]
  have hstart (startIp : Nat) : startRun startIp s = none := startRun_eq_none_of_not_idle hidle
  exact ⟨fun _ _ _ => loadBytes_ne_ok_of_not_idle hidle,
    fun startIp _ => ⟨hstart startIp, hostRun_of_startRun_none (hstart startIp)⟩, hostInspect_of_not_running hrunning⟩

end Sys2Proof.Machine
end

section
/-! SUPPORT. 41_basic.md: what a missing operand byte and a register index of 8 or more raise, for any instruction, and the
rules of HLT, LDI and PRN settled from these. -/

namespace Sys2Proof.Machine

variable {m : OpcodeMap} {op : Byte} {s : State} {r : Nat}

/-- Reading operand bytes past the end of memory reports the lowest missing address, the capacity (40_dispatch.md R103). -/
theorem readBytes_past_capacity {mem : Memory} {a n : Nat} (ha : a ≤ mem.capacity) (hn : mem.capacity < a + n) :
    mem.readBytes a n = .error ⟨.outOfBounds, mem.capacity⟩ := by
  induction n generalizing a with
  | zero => omega
  | succ n ih =>
    by_cases hc : a = mem.capacity
    · subst hc
      have hread : mem.read mem.capacity = .error ⟨.outOfBounds, mem.capacity⟩ := by
        rw [Memory.read_natCast, if_neg (by omega)]
      simp [Memory.readBytes, hread]
    · have hread : mem.read a = .ok (mem.byteAt a) := by rw [Memory.read_natCast, if_pos (by omega)]
      simp [Memory.readBytes, hread, ih (a := a + 1) (by omega) (by omega)]

/-- A known opcode whose operand bytes do not all fit in memory is fault entry at the capacity (40_dispatch.md R103). -/
theorem stepWith_of_missing_operand {h : Mnemonic} (hr : s.runState = .running) (hop : s.mem.read s.pc = .ok op)
    (hl : m.lookup op = some h) (hc : s.mem.capacity ≤ s.pc + h.operandCount) :
    stepWith m s = .next (s.afterFault (some op) .outOfBounds s.mem.capacity) := by
  have hpc : s.mem.inBounds s.pc := (Memory.read_eq_ok.1 hop).1
  have hbytes : s.mem.readBytes (s.pc + 1) h.operandCount = .error ⟨.outOfBounds, s.mem.capacity⟩ :=
    readBytes_past_capacity (by omega) (by omega)
  have hfetch : fetchInstr m s = .error ⟨.outOfBounds, s.mem.capacity⟩ := by
    simp [fetchInstr, hop, decodeOpcode_eq_ok.2 hl, hbytes]
  rw [stepWith_of_fetch_error hr hfetch, takeFault_eq_afterFault, opcodeByte_of_read hop]

/-- The default map's case of `stepWith_of_missing_operand`, in the form the statements of the instructions share. -/
theorem raisesOnMissingOperand_of_lookup {h : Mnemonic} (hl : defaultOpcodes.lookup op = some h) :
    raisesOnMissingOperand op h.operandCount :=
  fun _ hr hop hc => stepWith_of_missing_operand hr hop hl hc

/-- A handler that begins with the check of a register index of 8 or more is fault entry (40_dispatch.md R104). -/
theorem finish_regOk_of_ge {f : Unit → Except Trap State} (hr : 8 ≤ r) :
    finish s (regOk r >>= f) = .next (s.afterFault s.opcodeByte .invalidRegister r) := by
  rw [regOk_of_ge hr, except_error_bind, finish_error, takeFault_eq_afterFault]

theorem exec_hlt : exec .hlt s = .next { s with runState := .halted } := rfl

theorem exec_ldi_of_lt {imm8 : Byte} (hr : r < 8) :
    exec (.ldi r imm8) s = .next { s with regs := s.regs.set r imm8, pc := s.pc + 3 } := by
  simp only [exec, execLdi, regOk_of_lt hr, writeReg_of_lt hr, except_ok_bind, immediate_eq]
  rfl

theorem exec_prn_of_lt (hr : r < 8) : exec (.prn r) s = .next { s with
    pc := s.pc + 2
    events := s.events ++ [.print s.pc s.opcodeByte s.regs s.regs[r]] } := by
  simp only [exec, execPrn, regOk_of_lt hr, readReg_of_lt hr, except_ok_bind]
  rfl

/-- Settles O18: the fetch of 0x01 reads no operand byte, so the step is `exec_hlt`. -/
theorem hltRule : Obligations.HltRule := by
  refine ⟨rfl, fun s => exec_hlt, fun s hr hop => ?_⟩
  have hfetch : fetchInstr defaultOpcodes s = .ok .hlt := fetchInstr_eq_ok.2 ⟨_, .hlt, [], hop, rfl, rfl, rfl⟩
  exact (stepWith_of_fetch hr hfetch).trans exec_hlt

/-- Settles O19: LDI checks its register first, and 0x82 takes two operand bytes. -/
theorem ldiRule : Obligations.LdiRule :=
  ⟨fun _ _ => rfl, fun _ hr _ _ => exec_ldi_of_lt hr, fun _ _ hr _ => finish_regOk_of_ge hr,
    raisesOnMissingOperand_of_lookup (h := .ldi) rfl⟩

/-- Settles O20: PRN checks its register before it emits, and 0x47 takes one operand byte. -/
theorem prnRule : Obligations.PrnRule :=
  ⟨fun _ => rfl, fun _ hr _ => exec_prn_of_lt hr, fun _ _ => opcodeByte_of_read, fun _ hr _ => finish_regOk_of_ge hr,
    raisesOnMissingOperand_of_lookup (h := .prn) rfl⟩

end Sys2Proof.Machine
end

section
/-! SUPPORT. 42_stack.md: PUSH and POP of a register below 8 are the stack manager's push and pop (20_memory.md R60, R61) and
what follows them in the handler; the rules of both settled from that and from `pushContract` and `popContract`. -/

namespace Sys2Proof.Machine

variable {s : State} {r : Nat}

/-- PUSH past its register check is the push of the register, then the advance (42_stack.md R150). -/
theorem exec_push_of_lt (hr : r < 8) :
    exec (.push r) s = finish s (push s.regs[r] s >>= fun t => .ok (t.advance 2)) := by
  simp only [exec, execPush, regOk_of_lt hr, readReg_of_lt hr, except_ok_bind]
  rfl

/-- POP past its register check is the pop, then the write of the register and the advance (42_stack.md R151). -/
theorem exec_pop_of_lt (hr : r < 8) :
    exec (.pop r) s = finish s (pop s >>= fun p => .ok { p.2 with regs := p.2.regs.set r p.1, pc := p.2.pc + 2 }) := by
  simp only [exec, execPop, regOk_of_lt hr, writeReg_of_lt hr, except_ok_bind]
  rfl

/-- Settles O21: past the register check PUSH does what `pushContract` says of a push, and 0x45 takes one operand byte. -/
theorem pushRule : Obligations.PushRule := by
  refine ⟨fun _ => rfl, fun r hr s hroom => ?_, fun r s hr hfull => ?_, fun _ hr _ => finish_regOk_of_ge hr,
    raisesOnMissingOperand_of_lookup (h := .push) rfl⟩
  · obtain ⟨t, hpush, hstored, ht⟩ := (pushContract s.regs[r] s).2 hroom
    have hnext : exec (.push r) s = .next (t.advance 2) := by rw [exec_push_of_lt hr, hpush, except_ok_bind, finish_ok]
    exact ⟨_, hnext, hstored, congrArg (State.advance 2) ht⟩
  · rw [exec_push_of_lt hr, (pushContract s.regs[r] s).1 hfull, except_error_bind, finish_error, takeFault_eq_afterFault]
    rfl

/-- Settles O22: past the register check POP does what `popContract` says of a pop, whose slot is `SP + 1`, and 0x46 takes
one operand byte. -/
theorem popRule : Obligations.PopRule := by
  refine ⟨fun _ => rfl, fun r hr s h0 hc => ?_, fun r s hr hempty => ?_, fun _ hr _ => finish_regOk_of_ge hr,
    raisesOnMissingOperand_of_lookup (h := .pop) rfl⟩
  · obtain ⟨v, t, hpop, hread, hstored, ht⟩ := (popContract s).2 h0 hc
    have hslot : (s.mem.capacity : Int) - 1 - (s.stackDepth - 1) = s.sp + 1 := by rw [sp_eq]; omega
    rw [hslot] at hread hstored
    have hnext : exec (.pop r) s = .next { t with regs := t.regs.set r v, pc := t.pc + 2 } := by
      rw [exec_pop_of_lt hr, hpop, except_ok_bind, finish_ok]
    exact ⟨v, _, hnext, hread, hstored, congrArg (fun u => { u with regs := u.regs.set r v, pc := u.pc + 2 }) ht⟩
  · rw [exec_pop_of_lt hr, (popContract s).1 hempty, except_error_bind, finish_error, takeFault_eq_afterFault]

end Sys2Proof.Machine
end

section
/-! SUPPORT. 43_control_transfer.md: CALL of a register below 8 is the check of its own address, the stack manager's push and the
jump, and RET is the pop and the jump; the rules of both settled from that and from `pushContract` and `popContract`. -/

namespace Sys2Proof.Machine

variable {s : State} {r : Nat}

/-- CALL past its register check is the check of its own address, the push of that address, then the jump
(43_control_transfer.md R170). -/
theorem exec_call_of_lt (hr : r < 8) : exec (.call r) s =
    finish s (returnAddress s.pc >>= fun v => push v s >>= fun t => .ok (t.jump s.regs[r].toNat)) := by
  simp only [exec, execCall, regOk_of_lt hr, readReg_of_lt hr, except_ok_bind]
  rfl

/-- A CALL at an address that fits a byte comes to the push of that address (43_control_transfer.md R170). -/
theorem exec_call_of_le (hr : r < 8) (hpc : s.pc ≤ 255) : exec (.call r) s =
    finish s (push (BitVec.ofNat 8 s.pc) s >>= fun t => .ok (t.jump s.regs[r].toNat)) := by
  rw [exec_call_of_lt hr, returnAddress_eq, if_pos hpc, except_ok_bind]

/-- A CALL at an address that does not fit a byte is fault entry before the push (43_control_transfer.md R170). -/
theorem exec_call_of_gt (hr : r < 8) (hpc : 255 < s.pc) :
    exec (.call r) s = .next (s.afterFault s.opcodeByte .returnAddressRange s.pc) := by
  rw [exec_call_of_lt hr, returnAddress_eq, if_neg (Nat.not_le.2 hpc), except_error_bind, finish_error,
    takeFault_eq_afterFault]

/-- RET is the pop, then the jump past the 2-byte CALL (43_control_transfer.md R171). -/
theorem exec_ret : exec .ret s = finish s (pop s >>= fun p => .ok (p.2.jump (p.1.toNat + 2))) := rfl

/-- Settles O24: past the register check and the check of its address CALL does what `pushContract` says of a push, and 0x50
takes one operand byte. -/
theorem callRule : Obligations.CallRule := by
  refine ⟨fun _ => rfl, fun r hr s hpc hroom => ?_, fun _ _ hr hpc => exec_call_of_gt hr hpc, fun r s hr hpc hfull => ?_,
    fun _ hr _ => finish_regOk_of_ge hr, raisesOnMissingOperand_of_lookup (h := .call) rfl⟩
  · obtain ⟨t, hpush, hstored, ht⟩ := (pushContract (BitVec.ofNat 8 s.pc) s).2 hroom
    have hnext : exec (.call r) s = .next (t.jump s.regs[r].toNat) := by
      rw [exec_call_of_le hr hpc, hpush, except_ok_bind, finish_ok]
    have hself : (BitVec.ofNat 8 s.pc).toNat = s.pc := Nat.mod_eq_of_lt (by omega)
    exact ⟨_, _, hnext, hself, hstored, congrArg (State.jump s.regs[r].toNat) ht⟩
  · rw [exec_call_of_le hr hpc, (pushContract _ s).1 hfull, except_error_bind, finish_error, takeFault_eq_afterFault]
    rfl

/-- Settles O25: RET does what `popContract` says of a pop, whose slot is `SP + 1`, and the fetch of 0x11 reads no operand
byte. -/
theorem retRule : Obligations.RetRule := by
  refine ⟨rfl, fun s h0 hc => ?_, fun s hr hop => ?_, fun s hempty => ?_⟩
  · obtain ⟨v, t, hpop, hread, hstored, ht⟩ := (popContract s).2 h0 hc
    have hslot : (s.mem.capacity : Int) - 1 - (s.stackDepth - 1) = s.sp + 1 := by rw [sp_eq]; omega
    rw [hslot] at hread hstored
    have hnext : exec .ret s = .next (t.jump (v.toNat + 2)) := by rw [exec_ret, hpop, except_ok_bind, finish_ok]
    exact ⟨v, _, hnext, hread, hstored, congrArg (State.jump (v.toNat + 2)) ht⟩
  · have hfetch : fetchInstr defaultOpcodes s = .ok .ret := fetchInstr_eq_ok.2 ⟨_, .ret, [], hop, rfl, rfl, rfl⟩
    exact stepWith_of_fetch hr hfetch
  · rw [exec_ret, (popContract s).1 hempty, except_error_bind, finish_error, takeFault_eq_afterFault]

end Sys2Proof.Machine
end

section
/-! SUPPORT. 44_alu.md: what each operation of the ALU answers, that no step raises UnsupportedOperation, what the common part of
the arithmetic instructions does in each of its cases, and the family's statements settled from these. -/

namespace Sys2Proof.Machine

variable {m : OpcodeMap} {s t : State} {a b : Nat} {tag : BitVec 8}

/-! ## The ALU unit -/

theorem toNat_narrow_natCast (n : Nat) : (narrow n).toNat = n % 256 := by
  have hn := toNat_narrow n
  omega

theorem exists_aluApply_add (x y : Byte) : ∃ v, aluApply tagAdd x y = .ok v ∧ v.toNat = (x.toNat + y.toNat) % 256 :=
  ⟨_, aluApply_add x y, toNat_narrow_natCast (x.toNat + y.toNat)⟩

theorem exists_aluApply_sub (x y : Byte) :
    ∃ v, aluApply tagSub x y = .ok v ∧ (v.toNat : Int) = ((x.toNat : Int) - y.toNat) % 256 :=
  ⟨_, aluApply_sub x y, toNat_narrow _⟩

theorem exists_aluApply_mul (x y : Byte) : ∃ v, aluApply tagMul x y = .ok v ∧ v.toNat = (x.toNat * y.toNat) % 256 :=
  ⟨_, aluApply_mul x y, toNat_narrow_natCast (x.toNat * y.toNat)⟩

theorem aluApply_div_zero (x : Byte) : aluApply tagDiv x 0 = .error .divisionByZero := rfl

/-- A quotient of bytes is a byte, so the narrowing of DIV changes nothing (44_alu.md R190). -/
theorem exists_aluApply_div (x : Byte) {y : Byte} (hy : y ≠ 0) :
    ∃ v, aluApply tagDiv x y = .ok v ∧ v.toNat = x.toNat / y.toNat := by
  have hlt : x.toNat / y.toNat < 256 := (Nat.div_le_self _ _).trans_lt x.isLt
  refine ⟨_, (aluApply_div x y).trans (if_neg hy), ?_⟩
  exact (toNat_narrow_natCast (x.toNat / y.toNat)).trans (Nat.mod_eq_of_lt hlt)

theorem mem_tags_iff : tag ∈ [tagAdd, tagSub, tagMul, tagDiv] ↔ tag.toNat < 4 := by
  simp only [List.mem_cons, List.not_mem_nil, or_false, ← BitVec.toNat_inj]
  change tag.toNat = 0 ∨ tag.toNat = 1 ∨ tag.toNat = 2 ∨ tag.toNat = 3 ↔ _
  omega

/-- The ALU refuses exactly the tags that are none of its four (44_alu.md R191). -/
theorem aluApply_eq_unsupportedOperation_iff {x y : Byte} :
    aluApply tag x y = .error .unsupportedOperation ↔ 4 ≤ tag.toNat := by
  constructor
  · intro h
    by_contra hlt
    cases aluApply_error h (mem_tags_iff.2 (not_le.1 hlt))
  · intro h
    have hnot : tag ∉ [tagAdd, tagSub, tagMul, tagDiv] := fun hmem => (mem_tags_iff.1 hmem).not_ge h
    simp only [List.mem_cons, List.not_mem_nil, or_false, not_or] at hnot
    obtain ⟨hadd, hsub, hmul, hdiv⟩ := hnot
    rw [aluApply, if_neg hadd, if_neg hsub, if_neg hmul, if_neg hdiv]

/-! ## What a step can raise -/

/-- A sequence fails when its first part does, or the rest after it. -/
theorem except_bind_eq_error {α β : Type} {x : Except Trap α} {f : α → Except Trap β} {e : Trap} :
    (x >>= f) = .error e ↔ x = .error e ∨ ∃ c, x = .ok c ∧ f c = .error e := by
  cases x <;> simp

theorem read_raises {mem : Memory} {n : Nat} {e : Trap} (h : mem.read n = .error e) : Raises s e := by
  rw [Memory.read_natCast] at h
  split at h
  · cases h
  · cases h
    exact ⟨by simp, .inl (by simp)⟩

theorem decodeOpcode_raises {op : Byte} {e : Trap} (h : decodeOpcode m op = .error e) : Raises s e := by
  unfold decodeOpcode at h
  split at h
  · cases h
  · cases h
    exact ⟨by simp, .inl (by simp)⟩

theorem readBytes_raises {mem : Memory} {n k : Nat} {e : Trap} (h : mem.readBytes n k = .error e) : Raises s e := by
  induction k generalizing n with
  | zero => cases h
  | succ k ih =>
    unfold Memory.readBytes at h
    split at h
    · cases h
      exact read_raises ‹_›
    · split at h
      · cases h
        exact ih ‹_›
      · cases h

/-- What the phases before EXECUTE can raise (40_dispatch.md R106) is bounded as what a handler can raise is. -/
theorem fetchInstr_raises {e : Trap} (h : fetchInstr m s = .error e) : Raises s e := by
  simp only [fetchInstr, except_bind_eq_error] at h
  rcases h with hread | ⟨op, -, hdecode | ⟨mn, -, hbytes | ⟨bs, -, hpure⟩⟩⟩
  · exact read_raises hread
  · exact decodeOpcode_raises hdecode
  · exact readBytes_raises hbytes
  · cases hpure

/-- `takeFault_of_stepWith` with what the recorded fault can be. -/
theorem takeFault_raises_of_stepWith (hs : s.fault = none) (h : stepWith m s = .next t) (ht : t.fault ≠ none) :
    ∃ e, Raises s e ∧ t = takeFault e s := by
  obtain ⟨-, ⟨i, -, hexec⟩ | ⟨e, hfetch, rfl⟩⟩ := stepWith_eq_next.1 h
  · rcases exec_next_cases hexec with heffect | hfault
    · exact absurd ((effect_fault heffect).trans hs) ht
    · exact hfault
  · exact ⟨e, fetchInstr_raises hfetch, rfl⟩

/-! ## The common part of the arithmetic instructions (44_alu.md R192) -/

theorem arithmetic_of_ge_left (ha : 8 ≤ a) : arithmetic tag a b s = .error ⟨.invalidRegister, a⟩ := by
  rw [arithmetic, regOk_of_ge ha, except_error_bind]

theorem arithmetic_of_ge_right (ha : a < 8) (hb : 8 ≤ b) : arithmetic tag a b s = .error ⟨.invalidRegister, b⟩ := by
  rw [arithmetic, regOk_of_lt ha, except_ok_bind, regOk_of_ge hb, except_error_bind]

theorem arithmetic_of_ok (ha : a < 8) (hb : b < 8) {v : Byte} (hv : aluApply tag s.regs[a] s.regs[b] = .ok v) :
    arithmetic tag a b s = .ok { s with regs := s.regs.set a v } := by
  simp [arithmetic, ha, hb, hv]

/-- DivisionByZero is recorded with the divisor's register index (44_alu.md R196). -/
theorem arithmetic_of_divisionByZero (ha : a < 8) (hb : b < 8)
    (hv : aluApply tag s.regs[a] s.regs[b] = .error .divisionByZero) :
    arithmetic tag a b s = .error ⟨.divisionByZero, b⟩ := by
  simp [arithmetic, ha, hb, hv]

/-- The four handlers: the common part, then the advance by the width of an `RR` instruction. -/
def finishArithmetic (tag : BitVec 8) (a b : Nat) (s : State) : Result :=
  finish s (arithmetic tag a b s >>= fun t => pure (t.advance 3))

theorem exec_add : exec (.add a b) s = finishArithmetic tagAdd a b s := rfl
theorem exec_sub : exec (.sub a b) s = finishArithmetic tagSub a b s := rfl
theorem exec_mul : exec (.mul a b) s = finishArithmetic tagMul a b s := rfl
theorem exec_div : exec (.div a b) s = finishArithmetic tagDiv a b s := rfl

theorem finishArithmetic_of_ok (ha : a < 8) (hb : b < 8) {v : Byte} (hv : aluApply tag s.regs[a] s.regs[b] = .ok v) :
    finishArithmetic tag a b s = .next { s with regs := s.regs.set a v, pc := s.pc + 3 } := by
  rw [finishArithmetic, arithmetic_of_ok ha hb hv]
  rfl

theorem finishArithmetic_of_error {e : Trap} (h : arithmetic tag a b s = .error e) :
    finishArithmetic tag a b s = .next (s.afterFault s.opcodeByte e.kind e.value) := by
  rw [finishArithmetic, h, except_error_bind, finish_error, takeFault_eq_afterFault]

/-- An instruction that is the common part of the four checks its first operand, then its second. -/
theorem checksBothRegisters_of_exec {make : Nat → Nat → Instr}
    (hmake : ∀ a b s, exec (make a b) s = finishArithmetic tag a b s) : checksBothRegisters make :=
  fun _ _ => ⟨fun ha _ => (hmake _ _ _).trans (finishArithmetic_of_error (arithmetic_of_ge_left ha)),
    fun ha hb _ => (hmake _ _ _).trans (finishArithmetic_of_error (arithmetic_of_ge_right ha hb))⟩

/-! ## The statements -/

/-- Settles O28: one lemma for each tag, and `aluApply_eq_unsupportedOperation_iff` for the others. -/
theorem aluApply_spec : Obligations.AluApply := by
  refine fun x y => ⟨exists_aluApply_add x y, exists_aluApply_sub x y, exists_aluApply_mul x y, ?_,
    exists_aluApply_div x, fun _ => aluApply_eq_unsupportedOperation_iff.2⟩
  rintro rfl
  exact aluApply_div_zero x

/-- Settles O29: a step that sets the record does it by a fault of the fetch or of a handler, and neither raises
UnsupportedOperation (`Raises`). -/
theorem unsupportedOperationNeverFromAStep : Obligations.UnsupportedOperationNeverFromAStep := by
  refine ⟨⟨rfl, rfl, rfl, rfl⟩, fun _ _ _ => aluApply_eq_unsupportedOperation_iff.symm, rfl, ?_⟩
  intro m s t record hs hstep hrecord
  obtain ⟨e, ⟨hkind, -⟩, rfl⟩ := takeFault_raises_of_stepWith hs hstep (by simp [hrecord])
  cases hrecord
  exact hkind

/-- Settles O30: ADD is the common part with the sum modulo 256, and 0xA0 takes two operand bytes. -/
theorem addRule : Obligations.AddRule := by
  refine ⟨fun _ _ => rfl, fun a b ha hb s => ?_, checksBothRegisters_of_exec fun _ _ _ => exec_add,
    raisesOnMissingOperand_of_lookup (h := .add) rfl⟩
  obtain ⟨v, hv, hval⟩ := exists_aluApply_add s.regs[a] s.regs[b]
  exact ⟨v, hval, exec_add.trans (finishArithmetic_of_ok ha hb hv)⟩

/-- Settles O31: SUB is the common part with the difference modulo 256, and 0xA1 takes two operand bytes. -/
theorem subRule : Obligations.SubRule := by
  refine ⟨fun _ _ => rfl, fun a b ha hb s => ?_, checksBothRegisters_of_exec fun _ _ _ => exec_sub,
    raisesOnMissingOperand_of_lookup (h := .sub) rfl⟩
  obtain ⟨v, hv, hval⟩ := exists_aluApply_sub s.regs[a] s.regs[b]
  exact ⟨v, hval, exec_sub.trans (finishArithmetic_of_ok ha hb hv)⟩

/-- Settles O32: MUL is the common part with the product modulo 256, and 0xA2 takes two operand bytes. -/
theorem mulRule : Obligations.MulRule := by
  refine ⟨fun _ _ => rfl, fun a b ha hb s => ?_, checksBothRegisters_of_exec fun _ _ _ => exec_mul,
    raisesOnMissingOperand_of_lookup (h := .mul) rfl⟩
  obtain ⟨v, hv, hval⟩ := exists_aluApply_mul s.regs[a] s.regs[b]
  exact ⟨v, hval, exec_mul.trans (finishArithmetic_of_ok ha hb hv)⟩

/-- Settles O33: DIV is the common part with the quotient, a zero divisor faults after both register checks, and 0xA3 takes two
operand bytes. -/
theorem divRule : Obligations.DivRule := by
  refine ⟨fun _ _ => rfl, fun a b ha hb s hne => ?_, fun a b ha hb s hzero => ?_,
    checksBothRegisters_of_exec fun _ _ _ => exec_div, raisesOnMissingOperand_of_lookup (h := .div) rfl⟩
  · obtain ⟨v, hv, hval⟩ := exists_aluApply_div s.regs[a] hne
    exact ⟨v, hval, exec_div.trans (finishArithmetic_of_ok ha hb hv)⟩
  · have hv : aluApply tagDiv s.regs[a] s.regs[b] = .error .divisionByZero := by rw [hzero, aluApply_div_zero]
    exact exec_div.trans (finishArithmetic_of_error (arithmetic_of_divisionByZero ha hb hv))

end Sys2Proof.Machine
end

section
/-! SUPPORT. 60_exceptions.md: the event each way of ending a step emits, and the computations that only append to the events and
do the same whatever was emitted before; the family's statements settled from these. -/

namespace Sys2Proof.Machine

variable {m : OpcodeMap} {i : Instr} {s t : State}

/-! ## The events of a step -/

theorem mnemonic_assemble (h : Mnemonic) (bs : List Byte) : (assemble h bs).mnemonic = h := by
  cases h <;> rfl

/-- The byte at `pc` is the opcode of the instruction fetched there (30_encoding.md R86). -/
theorem opcodeByte_of_fetchInstr (h : fetchInstr m s = .ok i) : s.opcodeByte = some (m.opcodeOf i.mnemonic) := by
  obtain ⟨op, mn, bs, hread, hlookup, -, rfl⟩ := fetchInstr_eq_ok.1 h
  rw [opcodeByte_of_read hread, mnemonic_assemble, Laws.opcodeOf_of_lookup hlookup]

/-- Of the instructions that complete only PRN emits. -/
theorem effect_events (h : Effect i s t) (hi : ∀ r, i ≠ .prn r) : t.events = s.events := by
  cases i with
  | prn r => exact absurd rfl (hi r)
  | hlt => cases h; rfl
  | ldi => obtain ⟨_, rfl⟩ := h; rfl
  | push => obtain ⟨_, _, rfl⟩ := h; rfl
  | pop => obtain ⟨_, _, _, rfl⟩ := h; rfl
  | call => obtain ⟨_, _, _, rfl⟩ := h; rfl
  | ret => obtain ⟨_, _, rfl⟩ := h; rfl
  | add => obtain ⟨_, _, _, _, rfl⟩ := h; rfl
  | sub => obtain ⟨_, _, _, _, rfl⟩ := h; rfl
  | mul => obtain ⟨_, _, _, _, rfl⟩ := h; rfl
  | div => obtain ⟨_, _, _, _, rfl⟩ := h; rfl

/-- Settles O42: a step that sets the record is fault entry, and one that does not has the effect of the instruction it fetched,
whose opcode byte is the byte at `pc`. -/
theorem eventsOfAStep : Obligations.EventsOfAStep := by
  intro m s t hs h
  refine ⟨fun record ht => ?_, fun ht => ?_⟩
  · obtain ⟨e, rfl⟩ := takeFault_of_stepWith hs h (by simp [ht])
    cases ht
    exact ⟨s.opcodeByte, takeFault_events s e, fun _ => opcodeByte_of_read, opcodeByte_of_capacity_le⟩
  · obtain ⟨i, hf, he⟩ := effect_of_stepWith h ht
    refine ⟨fun r hprn => ?_, fun hother => effect_events he fun r hi => hother r (hi ▸ hf)⟩
    obtain rfl : i = .prn r := Except.ok.inj (hf.symm.trans hprn)
    have hop : s.opcodeByte = some m.prn := opcodeByte_of_fetchInstr hf
    obtain ⟨hr, rfl⟩ := he
    exact ⟨hr, by rw [hop]⟩

/-! ## Computations that only append to the events -/

/-- The state with another list of events emitted before. -/
def State.withEvents (earlier : List Event) (s : State) : State := { s with events := earlier }

/-- From `s` the computation appends some events, and it appends the same and does the same whatever was emitted before
(60_exceptions.md R229). -/
def AppendsEvents (f : State → Except Trap State) : Prop :=
  ∀ s, ∃ new, ∀ earlier, f (s.withEvents earlier) = (f s).map (State.withEvents (earlier ++ new))

/-- The same of a handler or a step: an answer that is a next state holds the events from before and some new ones, and these
are the same whatever was emitted before. -/
def IsOutputOnly (f : State → Result) : Prop :=
  ∀ (s t : State) (earlier : List Event), f s = .next t → ∃ new, t.events = s.events ++ new ∧
    f (s.withEvents earlier) = .next (t.withEvents (earlier ++ new))

variable {α : Type} {f g : State → Except Trap State}

/-- A computation that does not touch the events appends none. -/
theorem appendsEvents_of_ignores
    (h : ∀ s earlier, f (s.withEvents earlier) = (f s).map (State.withEvents earlier)) : AppendsEvents f :=
  fun s => ⟨[], fun earlier => by simpa using h s earlier⟩

/-- Something read from the state, but not from the events, and then the rest of the computation. -/
theorem appendsEvents_read {x : State → Except Trap α} {f : α → State → Except Trap State}
    (hx : ∀ s earlier, x (s.withEvents earlier) = x s) (hf : ∀ a, AppendsEvents (f a)) :
    AppendsEvents (fun s => x s >>= fun a => f a s) := by
  intro s
  simp only [hx]
  cases x s with
  | error e => exact ⟨[], fun _ => rfl⟩
  | ok a => exact hf a s

/-- What two computations append, one after the other, is appended in that order. -/
theorem appendsEvents_bind (hf : AppendsEvents f) (hg : AppendsEvents g) : AppendsEvents (fun s => f s >>= g) := by
  intro s
  obtain ⟨first, hfirst⟩ := hf s
  simp only [hfirst]
  cases f s with
  | error e => exact ⟨[], fun _ => rfl⟩
  | ok t =>
    obtain ⟨second, hsecond⟩ := hg t
    refine ⟨first ++ second, fun earlier => ?_⟩
    rw [← List.append_assoc]
    exact hsecond (earlier ++ first)

theorem appendsEvents_error (e : Trap) : AppendsEvents (fun _ => .error e) :=
  appendsEvents_of_ignores fun _ _ => rfl

theorem appendsEvents_advance (n : Nat) : AppendsEvents (fun s => pure (s.advance n)) :=
  appendsEvents_of_ignores fun _ _ => rfl

theorem appendsEvents_jump (n : Nat) : AppendsEvents (fun s => pure (s.jump n)) :=
  appendsEvents_of_ignores fun _ _ => rfl

theorem appendsEvents_regOk (r : Nat) (hf : AppendsEvents f) : AppendsEvents (fun s => regOk r >>= fun _ => f s) :=
  appendsEvents_read (fun _ _ => rfl) fun _ => hf

theorem appendsEvents_readReg (r : Nat) {f : Byte → State → Except Trap State} (hf : ∀ v, AppendsEvents (f v)) :
    AppendsEvents (fun s => readReg r s >>= fun v => f v s) :=
  appendsEvents_read (fun _ _ => rfl) hf

theorem appendsEvents_writeReg (r : Nat) (v : Byte) : AppendsEvents (writeReg r v) := by
  refine appendsEvents_of_ignores fun s earlier => ?_
  unfold writeReg
  split <;> rfl

theorem appendsEvents_push (v : Byte) : AppendsEvents (push v) := by
  refine appendsEvents_of_ignores fun s earlier => ?_
  simp only [push_eq, State.withEvents]
  split <;> rfl

/-- A pop does not look at the events (20_memory.md R61). -/
theorem pop_withEvents (s : State) (earlier : List Event) :
    pop (s.withEvents earlier) = (pop s).map (fun p => (p.1, p.2.withEvents earlier)) := by
  simp only [pop_eq, State.withEvents]
  split
  · rfl
  · split <;> rfl

/-- A pop, and then the rest of the computation, given the popped byte and the state after. -/
theorem appendsEvents_pop {f : Byte → State → Except Trap State} (hf : ∀ v, AppendsEvents (f v)) :
    AppendsEvents (fun s => pop s >>= fun p => f p.1 p.2) := by
  intro s
  simp only [pop_withEvents]
  cases pop s with
  | error e => exact ⟨[], fun _ => rfl⟩
  | ok p => exact hf p.1 p.2

theorem appendsEvents_arithmetic (tag : BitVec 8) (a b : Nat) : AppendsEvents (arithmetic tag a b) := by
  refine appendsEvents_regOk a (appendsEvents_regOk b (appendsEvents_readReg a fun x => appendsEvents_readReg b fun y => ?_))
  split
  · exact appendsEvents_writeReg a _
  · exact appendsEvents_error _
  · exact appendsEvents_error _

/-! ## Handlers and steps -/

/-- A handler is output only where its computation appends: fault entry discards the computation and emits one event from the
state before (60_exceptions.md R220). -/
theorem isOutputOnly_finish (hf : AppendsEvents f) : IsOutputOnly (fun s => finish s (f s)) := by
  intro s t earlier h
  obtain ⟨new, hnew⟩ := hf s
  rcases finish_eq_next.1 h with hok | ⟨e, herr, rfl⟩
  · have hown : f s = .ok (t.withEvents (s.events ++ new)) := (hnew s.events).trans (congrArg _ hok)
    have ht : t = t.withEvents (s.events ++ new) := Except.ok.inj (hok.symm.trans hown)
    exact ⟨new, congrArg State.events ht, by simp only [hnew, hok]; rfl⟩
  · exact ⟨_, takeFault_events s e, by simp only [hnew, herr]; rfl⟩

theorem isOutputOnly_finishArithmetic (tag : BitVec 8) (a b : Nat) : IsOutputOnly (finishArithmetic tag a b) :=
  isOutputOnly_finish (appendsEvents_bind (appendsEvents_arithmetic tag a b) (appendsEvents_advance 3))

theorem exec_isOutputOnly (i : Instr) : IsOutputOnly (exec i) := by
  cases i with
  | hlt =>
    exact isOutputOnly_finish (f := fun s => .ok { s with runState := .halted }) (appendsEvents_of_ignores fun _ _ => rfl)
  | ldi r imm8 =>
    exact isOutputOnly_finish (appendsEvents_regOk r (appendsEvents_bind (appendsEvents_writeReg r _) (appendsEvents_advance _)))
  | prn r =>
    exact isOutputOnly_finish (appendsEvents_regOk r (appendsEvents_readReg r fun v s =>
      ⟨[.print s.pc s.opcodeByte s.regs v], fun _ => rfl⟩))
  | push r =>
    exact isOutputOnly_finish (appendsEvents_regOk r (appendsEvents_readReg r fun v =>
      appendsEvents_bind (appendsEvents_push v) (appendsEvents_advance _)))
  | pop r =>
    exact isOutputOnly_finish (appendsEvents_regOk r (appendsEvents_pop fun v =>
      appendsEvents_bind (appendsEvents_writeReg r v) (appendsEvents_advance _)))
  | call r =>
    exact isOutputOnly_finish (appendsEvents_regOk r (appendsEvents_readReg r fun target =>
      appendsEvents_read (fun _ _ => rfl) fun self => appendsEvents_bind (appendsEvents_push self) (appendsEvents_jump _)))
  | ret => exact isOutputOnly_finish (appendsEvents_pop fun v => appendsEvents_jump (v.toNat + 2))
  | add a b => exact isOutputOnly_finishArithmetic tagAdd a b
  | sub a b => exact isOutputOnly_finishArithmetic tagSub a b
  | mul a b => exact isOutputOnly_finishArithmetic tagMul a b
  | div a b => exact isOutputOnly_finishArithmetic tagDiv a b

/-- The fetch reads memory at `pc` and no event. -/
theorem fetchInstr_withEvents (m : OpcodeMap) (s : State) (earlier : List Event) :
    fetchInstr m (s.withEvents earlier) = fetchInstr m s := rfl

theorem stepWith_isOutputOnly (m : OpcodeMap) : IsOutputOnly (stepWith m) := by
  intro s t earlier h
  obtain ⟨hr, ⟨i, hf, hx⟩ | ⟨e, hf, rfl⟩⟩ := stepWith_eq_next.1 h
  · obtain ⟨new, hevents, hnext⟩ := exec_isOutputOnly i s t earlier hx
    exact ⟨new, hevents, stepWith_eq_next.2 ⟨hr, .inl ⟨i, (fetchInstr_withEvents m s earlier).trans hf, hnext⟩⟩⟩
  · exact ⟨_, takeFault_events s e, stepWith_eq_next.2 ⟨hr, .inr ⟨e, (fetchInstr_withEvents m s earlier).trans hf, rfl⟩⟩⟩

/-- Settles O43: the fetch does not read the events, and every handler only appends to them. -/
theorem observerPortIsOutputOnly : Obligations.ObserverPortIsOutputOnly := stepWith_isOutputOnly

end Sys2Proof.Machine
end

section
/-! SUPPORT. 70_reset_and_hazards.md section 2: what reads see of a byte string stored in memory, how a load that does not fit
fails, and the contract of `load_bytes` settled from these. -/

namespace Sys2Proof.Machine

variable {s : State} {start : Nat} {bytes : List Byte}

/-! ## Reads after several bytes were stored -/

/-- Each stored byte is read back at its address. -/
theorem Memory.read_storeBytes_of_lt {m : Memory} {a k : Nat} (hfit : a + bytes.length ≤ m.capacity) (hk : k < bytes.length) :
    (Memory.storeBytes a bytes m).read ((a : Int) + k) = .ok bytes[k] := by
  rw [← Nat.cast_add, Memory.read_natCast, Memory.capacity_storeBytes, if_pos (by omega), Memory.byteAt_storeBytes,
    if_pos (by omega), Nat.add_sub_cancel_left, List.getD_eq_getElem _ _ hk]

/-- Every address off the stored range, in bounds or not, reads as before. -/
theorem Memory.read_storeBytes_of_outside {m : Memory} {a : Nat} {addr : Int}
    (h : addr < a ∨ (a : Int) + bytes.length ≤ addr) : (Memory.storeBytes a bytes m).read addr = m.read addr := by
  simp only [Memory.read, Memory.inBounds, Memory.capacity_storeBytes]
  split
  · rw [Memory.byteAt_storeBytes, if_neg (by omega)]
  · rfl

/-! ## A load that does not fit -/

/-- A load of at least one byte whose last byte has no address fails with the first address of its range that does not exist. -/
theorem loadBytes_of_last_not_lt (hs : s.runState = .idle) (hpos : 0 < bytes.length)
    (hlast : s.mem.capacity ≤ start + bytes.length - 1) :
    loadBytes start bytes s = .error (.outOfBounds (if start < s.mem.capacity then s.mem.capacity else start)) := by
  rw [loadBytes, if_neg (not_not.2 hs), if_pos ⟨hpos, hlast⟩]

/-- An empty load may start at the capacity, and not beyond it. -/
theorem loadBytes_empty_of_lt (hs : s.runState = .idle) (hlen : bytes.length = 0) (hstart : s.mem.capacity < start) :
    loadBytes start bytes s = .error (.outOfBounds start) := by
  rw [loadBytes, if_neg (not_not.2 hs), if_neg (by omega), if_pos ⟨hlen, hstart⟩]

/-- Settles O51: the range check fails before anything is stored, and a load that fits does what `loadBytes_eq_ok` says, which
reads see byte by byte. -/
theorem loadBytesContract : Obligations.LoadBytesContract := by
  refine fun start bytes s hs => ⟨fun hpos hlast hstart => ?_, fun hpos hstart => ?_, loadBytes_empty_of_lt hs, fun hfit => ?_⟩
  · rw [loadBytes_of_last_not_lt hs hpos hlast, if_pos hstart]
  · rw [loadBytes_of_last_not_lt hs hpos (by omega), if_neg (by omega)]
  · exact ⟨_, loadBytes_eq_ok.2 ⟨hs, hfit, rfl⟩, fun _ hk => Memory.read_storeBytes_of_lt hfit hk,
      fun _ hout => Memory.read_storeBytes_of_outside hout, rfl⟩

end Sys2Proof.Machine
end

section
/-! SUPPORT. What a completing instruction does to memory and the depth, which is nothing, one push or one pop (20_memory.md
R62), and to the registers; what follows for a step and for a callee's run, and the statements on frames, on the depth after a
push and on call/return pairing settled from these. -/

namespace Sys2Proof.Machine

variable {m : OpcodeMap} {i : Instr} {s t : State}

/-! ## Memory and the depth -/

/-- Memory and the depth stay. -/
structure KeepsStack (s t : State) : Prop where
  mem : t.mem = s.mem
  depth : t.stackDepth = s.stackDepth

/-- Room for a push, and one byte stored at `SP` (20_memory.md R60). -/
structure PushesByte (s t : State) : Prop where
  room : s.programEnd + s.stackDepth + 2 < s.mem.capacity
  mem : ∃ v, t.mem = s.mem.set (s.mem.capacity - 1 - s.stackDepth) v
  depth : t.stackDepth = s.stackDepth + 1

/-- A top slot in memory, and that slot zeroed (20_memory.md R61). -/
structure PopsByte (s t : State) : Prop where
  within : s.stackDepth ≤ s.mem.capacity
  mem : t.mem = s.mem.set (s.mem.capacity - s.stackDepth) 0
  depth : t.stackDepth + 1 = s.stackDepth

theorem takeFault_keepsStack (e : Trap) (s : State) : KeepsStack s (takeFault e s) := ⟨rfl, rfl⟩

/-- PUSH and CALL push, POP and RET pop, and the others leave the stack alone. -/
theorem effect_stack (h : Effect i s t) :
    (i.mnemonic ∈ [.push, .call] ∧ PushesByte s t) ∨ (i.mnemonic ∈ [.pop, .ret] ∧ PopsByte s t) ∨
    (i.mnemonic ∉ [.push, .call, .pop, .ret] ∧ KeepsStack s t) := by
  cases i with
  | push => obtain ⟨_, hroom, rfl⟩ := h; exact .inl ⟨by simp [Instr.mnemonic], hroom, ⟨_, rfl⟩, rfl⟩
  | call => obtain ⟨_, _, hroom, rfl⟩ := h; exact .inl ⟨by simp [Instr.mnemonic], hroom, ⟨_, rfl⟩, rfl⟩
  | pop => obtain ⟨_, h0, hc, rfl⟩ := h; exact .inr (.inl ⟨by simp [Instr.mnemonic], hc, rfl, Nat.sub_add_cancel h0⟩)
  | ret => obtain ⟨h0, hc, rfl⟩ := h; exact .inr (.inl ⟨by simp [Instr.mnemonic], hc, rfl, Nat.sub_add_cancel h0⟩)
  | hlt => cases h; exact .inr (.inr ⟨by simp [Instr.mnemonic], rfl, rfl⟩)
  | ldi => obtain ⟨_, rfl⟩ := h; exact .inr (.inr ⟨by simp [Instr.mnemonic], rfl, rfl⟩)
  | prn => obtain ⟨_, rfl⟩ := h; exact .inr (.inr ⟨by simp [Instr.mnemonic], rfl, rfl⟩)
  | add => obtain ⟨_, _, _, _, rfl⟩ := h; exact .inr (.inr ⟨by simp [Instr.mnemonic], rfl, rfl⟩)
  | sub => obtain ⟨_, _, _, _, rfl⟩ := h; exact .inr (.inr ⟨by simp [Instr.mnemonic], rfl, rfl⟩)
  | mul => obtain ⟨_, _, _, _, rfl⟩ := h; exact .inr (.inr ⟨by simp [Instr.mnemonic], rfl, rfl⟩)
  | div => obtain ⟨_, _, _, _, rfl⟩ := h; exact .inr (.inr ⟨by simp [Instr.mnemonic], rfl, rfl⟩)

theorem effect_pushesByte (h : Effect i s t) (hi : i.mnemonic ∈ [.push, .call]) : PushesByte s t := by
  rcases effect_stack h with ⟨-, hpush⟩ | ⟨hpop, -⟩ | ⟨hkeep, -⟩
  · exact hpush
  · cases hm : i.mnemonic <;> simp [hm] at hi hpop
  · exact absurd (List.mem_append_left [Mnemonic.pop, .ret] hi) hkeep

theorem effect_popsByte (h : Effect i s t) (hi : i.mnemonic ∈ [.pop, .ret]) : PopsByte s t := by
  rcases effect_stack h with ⟨hpush, -⟩ | ⟨-, hpop⟩ | ⟨hkeep, -⟩
  · cases hm : i.mnemonic <;> simp [hm] at hi hpush
  · exact hpop
  · exact absurd (List.mem_append_right [Mnemonic.push, .call] hi) hkeep

theorem effect_keepsStack (h : Effect i s t) (hi : i.mnemonic ∉ [.push, .call, .pop, .ret]) : KeepsStack s t := by
  rcases effect_stack h with ⟨hpush, -⟩ | ⟨hpop, -⟩ | ⟨-, hkeep⟩
  · exact absurd (List.mem_append_left [Mnemonic.pop, .ret] hpush) hi
  · exact absurd (List.mem_append_right [Mnemonic.push, .call] hpop) hi
  · exact hkeep

/-- A step pushes one byte, pops one, or leaves the stack alone, as it does on a fault. -/
theorem stepWith_stack (h : stepWith m s = .next t) : PushesByte s t ∨ PopsByte s t ∨ KeepsStack s t := by
  obtain ⟨-, ⟨i, -, he⟩ | ⟨e, rfl⟩⟩ := stepWith_next_cases h
  · exact (effect_stack he).imp And.right (Or.imp And.right And.right)
  · exact .inr (.inr (takeFault_keepsStack e s))

theorem PushesByte.capacity_eq (h : PushesByte s t) : t.mem.capacity = s.mem.capacity := by
  obtain ⟨v, hmem⟩ := h.mem
  rw [hmem, Memory.capacity_set]

theorem PopsByte.capacity_eq (h : PopsByte s t) : t.mem.capacity = s.mem.capacity := by
  rw [h.mem, Memory.capacity_set]

theorem KeepsStack.capacity_eq (h : KeepsStack s t) : t.mem.capacity = s.mem.capacity := by rw [h.mem]

theorem stepWith_capacity (h : stepWith m s = .next t) : t.mem.capacity = s.mem.capacity := by
  rcases stepWith_stack h with hpush | hpop | hkeep
  · exact hpush.capacity_eq
  · exact hpop.capacity_eq
  · exact hkeep.capacity_eq

/-- A push writes no address but `SP`. -/
theorem PushesByte.read_of_ne (h : PushesByte s t) {a : Int} (ha : a ≠ s.sp) : t.mem.read a = s.mem.read a := by
  obtain ⟨v, hmem⟩ := h.mem
  have hroom := h.room
  have hsp := sp_eq s
  exact (storedOnly_of_mem_eq_set (addr := s.sp) hmem (by omega) (by omega)).2 a ha

/-- A pop writes no address but `SP + 1`. -/
theorem PopsByte.read_of_ne (h : PopsByte s t) {a : Int} (ha : a ≠ s.sp + 1) : t.mem.read a = s.mem.read a := by
  have hwithin := h.within
  have hdepth := h.depth
  have hsp := sp_eq s
  exact (storedOnly_of_mem_eq_set (addr := s.sp + 1) h.mem (by omega) (by omega)).2 a ha

theorem KeepsStack.sameMemory (h : KeepsStack s t) : sameMemory s t := fun a => by rw [h.mem]

/-! ## Registers and `program_end` -/

/-- A completing instruction leaves the registers alone, or sets its first register operand. -/
theorem effect_regs (h : Effect i s t) :
    t.regs = s.regs ∨ (i.mnemonic ∉ [.hlt, .prn, .push, .call, .ret] ∧
      ∃ (r : Nat) (_ : r < 8) (v : Byte), i.registerOperands.head? = some r ∧ t.regs = s.regs.set r v) := by
  cases i with
  | hlt => cases h; exact .inl rfl
  | prn => obtain ⟨_, rfl⟩ := h; exact .inl rfl
  | push => obtain ⟨_, _, rfl⟩ := h; exact .inl rfl
  | call => obtain ⟨_, _, _, rfl⟩ := h; exact .inl rfl
  | ret => obtain ⟨_, _, rfl⟩ := h; exact .inl rfl
  | ldi => obtain ⟨hr, rfl⟩ := h; exact .inr ⟨by simp [Instr.mnemonic], _, hr, _, rfl, rfl⟩
  | pop => obtain ⟨hr, _, _, rfl⟩ := h; exact .inr ⟨by simp [Instr.mnemonic], _, hr, _, rfl, rfl⟩
  | add => obtain ⟨ha, _, _, _, rfl⟩ := h; exact .inr ⟨by simp [Instr.mnemonic], _, ha, _, rfl, rfl⟩
  | sub => obtain ⟨ha, _, _, _, rfl⟩ := h; exact .inr ⟨by simp [Instr.mnemonic], _, ha, _, rfl, rfl⟩
  | mul => obtain ⟨ha, _, _, _, rfl⟩ := h; exact .inr ⟨by simp [Instr.mnemonic], _, ha, _, rfl, rfl⟩
  | div => obtain ⟨ha, _, _, _, rfl⟩ := h; exact .inr ⟨by simp [Instr.mnemonic], _, ha, _, rfl, rfl⟩

theorem exec_regs_eq (h : exec i s = .next t) (hi : i.mnemonic ∈ [.hlt, .prn, .push, .call, .ret]) : t.regs = s.regs := by
  rcases exec_next_cases h with he | ⟨e, -, rfl⟩
  · exact (effect_regs he).resolve_right fun hset => hset.1 hi
  · rfl

/-- Whether it completes or faults, an instruction changes no register but its first register operand. -/
theorem exec_regs_getElem (h : exec i s = .next t) (k : Fin 8) (hk : i.registerOperands.head? ≠ some k.val) :
    t.regs[k] = s.regs[k] := by
  rcases exec_next_cases h with he | ⟨e, -, rfl⟩
  · rcases effect_regs he with hregs | ⟨-, r, hr, v, hhead, hregs⟩
    · rw [hregs]
    · have hne : r ≠ k.val := fun hrk => hk (hrk ▸ hhead)
      rw [hregs]
      exact Vector.getElem_set_ne hr k.isLt hne
  · rfl

theorem exec_programEnd (h : exec i s = .next t) : t.programEnd = s.programEnd := by
  rcases exec_next_cases h with he | ⟨e, -, rfl⟩
  · exact effect_programEnd he
  · rfl

/-! ## A run that stays above a depth -/

/-- A step between two depths of at least `d` leaves the lowest `d` slots of the stack, and what lies above them, alone. -/
theorem stepWith_read_of_depth_le {d : Nat} (h : stepWith m s = .next t) (hs : d ≤ s.stackDepth) (ht : d ≤ t.stackDepth)
    {a : Int} (ha : (s.mem.capacity : Int) - d ≤ a) : t.mem.read a = s.mem.read a := by
  have hsp := sp_eq s
  rcases stepWith_stack h with hpush | hpop | hkeep
  · exact hpush.read_of_ne (by omega)
  · have hdepth := hpop.depth
    exact hpop.read_of_ne (by omega)
  · exact hkeep.sameMemory a

theorem StaysAbove.le_start {d : Nat} (h : StaysAbove m d s t) : d ≤ s.stackDepth := by
  cases h <;> assumption

/-- A callee's run leaves its caller's part of the stack alone. -/
theorem StaysAbove.read_eq {d : Nat} (h : StaysAbove m d s t) : t.mem.capacity = s.mem.capacity ∧
    ∀ a : Int, (s.mem.capacity : Int) - d ≤ a → t.mem.read a = s.mem.read a := by
  induction h with
  | done => exact ⟨rfl, fun _ _ => rfl⟩
  | step hd hstep hrest ih =>
    obtain ⟨hcap, hread⟩ := ih
    have hstepcap := stepWith_capacity hstep
    refine ⟨hcap.trans hstepcap, fun a ha => ?_⟩
    rw [hread a (by omega), stepWith_read_of_depth_le hstep hd hrest.le_start ha]

/-! ## The statements -/

/-- Settles O27: the CALL leaves its address in the top slot of its callee's entry (`Effect`), the callee's run does not touch
that slot (`StaysAbove.read_eq`), and RET reads it (`retRule`). -/
theorem returnResumesAfterTheCall : Obligations.ReturnResumesAfterTheCall := by
  intro m r s entry last hs hcall hentry habove hdepth
  obtain ⟨hr, hpc, hroom, rfl⟩ : Effect (.call r) s entry := by
    rcases exec_next_cases hcall with he | ⟨e, -, rfl⟩
    · exact he
    · cases hentry
  obtain ⟨hcap, hread⟩ := habove.read_eq
  simp only [Memory.capacity_set] at hcap hread hdepth
  have hsp := sp_eq s
  have hlastsp := sp_eq last
  have hslot : last.sp + 1 = ((s.mem.capacity - 1 - s.stackDepth : Nat) : Int) := by omega
  have hself : last.mem.read (last.sp + 1) = .ok (BitVec.ofNat 8 s.pc) := by
    rw [hslot, hread _ (by omega), Memory.read_set (by omega), if_pos rfl]
  obtain ⟨v, t, hret, hv, -, ht⟩ := retRule.2.1 last (by omega) (by omega)
  obtain rfl : BitVec.ofNat 8 s.pc = v := Except.ok.inj (hself.symm.trans hv)
  have hbyte : (BitVec.ofNat 8 s.pc).toNat = s.pc := Nat.mod_eq_of_lt (by omega)
  refine ⟨t, hret, ?_⟩
  rw [ht, hbyte, hdepth]
  exact ⟨rfl, rfl, rfl⟩

/-- Settles O34: these seven keep the stack (`effect_keepsStack`), as fault entry does. -/
theorem frameOfTheInstructionsThatStoreNothing : Obligations.FrameOfTheInstructionsThatStoreNothing := by
  intro i s t hi h
  have hnot : i.mnemonic ∉ [.push, .call, .pop, .ret] := by cases hm : i.mnemonic <;> simp [hm] at hi ⊢
  have hkeep : KeepsStack s t := by
    rcases exec_next_cases h with he | ⟨e, -, rfl⟩
    · exact effect_keepsStack he hnot
    · exact takeFault_keepsStack e s
  exact ⟨hkeep.sameMemory, hkeep.depth, exec_programEnd h,
    fun hregs => exec_regs_eq h (List.mem_append_left [Mnemonic.push, .call, .ret] hregs), exec_regs_getElem h⟩

/-- Settles O35: one push or one pop writes one address, and fault entry none. -/
theorem frameOfTheInstructionsThatStore : Obligations.FrameOfTheInstructionsThatStore := by
  intro i s t h
  refine ⟨fun hi a ha => ?_, fun hi a ha => ?_, fun hi => ?_, fun _ => exec_programEnd h, ?_⟩
  · rcases exec_next_cases h with he | ⟨e, -, rfl⟩
    · exact (effect_pushesByte he hi).read_of_ne ha
    · rfl
  · rcases exec_next_cases h with he | ⟨e, -, rfl⟩
    · have hpop := effect_popsByte he hi
      have hdepth := hpop.depth
      have hslot : State.sp { s with stackDepth := s.stackDepth - 1 } = s.sp + 1 := by simp only [sp_eq]; omega
      exact hpop.read_of_ne (hslot ▸ ha)
    · rfl
  · exact exec_regs_eq h (List.mem_append_right [Mnemonic.hlt, .prn] hi)
  · rintro r rfl k hk
    exact exec_regs_getElem h k fun hhead => hk (Option.some.inj hhead).symm

/-- Settles O49: the guard of the push says it (20_memory.md R60). -/
theorem stackStaysAboveTheProgramAfterAPush : Obligations.StackStaysAboveTheProgramAfterAPush := by
  intro i s t hi hs h ht
  rcases exec_next_cases h with he | ⟨e, -, rfl⟩
  · have hpush := effect_pushesByte he hi
    have hroom := hpush.room
    rw [hpush.capacity_eq, hpush.depth, effect_programEnd he]
    omega
  · cases ht

end Sys2Proof.Machine
end

section
/-! SUPPORT. 10_state.md section 11: how far `pc` can go, and that construction, every step and the host's operations keep the
invariant; the statements on the invariant, the bounds and the program image settled from these. -/

namespace Sys2Proof.Machine

variable {m : OpcodeMap} {i : Instr} {s t : State}

/-! ## The program counter -/

/-- A fetch that succeeds found the whole instruction in memory (40_dispatch.md R103). -/
theorem fetchInstr_width_le (h : fetchInstr m s = .ok i) : s.pc + i.mnemonic.width ≤ s.mem.capacity := by
  obtain ⟨op, mn, bs, hread, -, hbytes, rfl⟩ := fetchInstr_eq_ok.1 h
  have hpc : s.mem.inBounds s.pc := (Memory.read_eq_ok.1 hread).1
  rw [mnemonic_assemble, Mnemonic.width]
  by_contra hlong
  rw [readBytes_past_capacity (by omega) (by omega)] at hbytes
  cases hbytes

/-- A completing instruction leaves `pc`, advances it by its width, or jumps to at most 257 (10_state.md R28). -/
theorem effect_pc_cases (h : Effect i s t) : t.pc = s.pc ∨ t.pc = s.pc + i.mnemonic.width ∨ t.pc ≤ 257 := by
  have hbyte (v : Byte) : v.toNat < 256 := v.isLt
  cases i with
  | hlt => cases h; exact .inl rfl
  | ldi => obtain ⟨_, rfl⟩ := h; exact .inr (.inl rfl)
  | prn => obtain ⟨_, rfl⟩ := h; exact .inr (.inl rfl)
  | push => obtain ⟨_, _, rfl⟩ := h; exact .inr (.inl rfl)
  | pop => obtain ⟨_, _, _, rfl⟩ := h; exact .inr (.inl rfl)
  | call r =>
    obtain ⟨hr, _, _, rfl⟩ := h
    exact .inr (.inr ((hbyte s.regs[r]).le.trans (by decide)))
  | ret =>
    obtain ⟨_, _, rfl⟩ := h
    exact .inr (.inr (Nat.add_le_add_right (Nat.le_of_lt_succ (hbyte _)) 2))
  | add => obtain ⟨_, _, _, _, rfl⟩ := h; exact .inr (.inl rfl)
  | sub => obtain ⟨_, _, _, _, rfl⟩ := h; exact .inr (.inl rfl)
  | mul => obtain ⟨_, _, _, _, rfl⟩ := h; exact .inr (.inl rfl)
  | div => obtain ⟨_, _, _, _, rfl⟩ := h; exact .inr (.inl rfl)

/-! ## The invariant -/

/-- A Running state with the invariant has no fault record. -/
theorem State.Inv.fault_eq_none (hs : s.Inv) (hr : s.runState = .running) : s.fault = none := by
  by_contra hf
  cases hr.symm.trans (hs.fault_halted hf)

/-- The slot of the next push is never below address 0. -/
theorem State.Inv.sp_nonneg (hs : s.Inv) : 0 ≤ s.sp := by
  have hpos := hs.capacity_pos
  have hdepth := hs.depth_le
  rw [sp_eq]
  omega

/-- What is raised in a state with the invariant has a non-negative value (60_exceptions.md R221). -/
theorem State.Inv.raises_nonneg (hs : s.Inv) {e : Trap} (he : Raises s e) : 0 ≤ e.value := by
  obtain ⟨-, hval | hsp | hdeep⟩ := he
  · exact hval
  · exact hsp ▸ hs.sp_nonneg
  · have hdepth := hs.depth_le
    omega

theorem stepWith_mem_wf (hs : s.mem.wf) (h : stepWith m s = .next t) : t.mem.wf := by
  rcases stepWith_stack h with hpush | hpop | hkeep
  · obtain ⟨v, hmem⟩ := hpush.mem
    have hroom := hpush.room
    exact hmem ▸ Memory.wf_set hs (by omega)
  · have hdepth := hpop.depth
    have hwithin := hpop.within
    exact hpop.mem ▸ Memory.wf_set hs (by omega)
  · exact hkeep.mem ▸ hs

/-- The guard of the push keeps the depth in its bound (10_state.md R29). -/
theorem stepWith_depth_le (hs : s.stackDepth ≤ s.mem.capacity - 2 - s.programEnd) (h : stepWith m s = .next t) :
    t.stackDepth ≤ t.mem.capacity - 2 - t.programEnd := by
  rw [stepWith_capacity h, stepWith_programEnd h]
  rcases stepWith_stack h with hpush | hpop | hkeep
  · have hroom := hpush.room
    have hdepth := hpush.depth
    omega
  · have hdepth := hpop.depth
    omega
  · exact hkeep.depth ▸ hs

theorem stepWith_ne_idle (h : stepWith m s = .next t) : t.runState ≠ .idle := by
  obtain ⟨hr, ⟨i, -, he⟩ | ⟨e, rfl⟩⟩ := stepWith_next_cases h
  · by_cases hi : i = .hlt
    · subst hi
      cases he
      exact nofun
    · rw [effect_runState he hi, hr]
      exact nofun
  · exact nofun

theorem construct_inv {C : Nat} (hC : 1 ≤ C) : (State.construct C).Inv where
  capacity_pos := hC
  mem_wf := ⟨List.Pairwise.nil, nofun⟩
  programEnd_le := Nat.zero_le C
  depth_le := Nat.zero_le _
  idle_empty := fun _ => rfl
  fault_halted := fun hf => absurd rfl hf
  fault_record := nofun

theorem stepWith_inv (hs : s.Inv) (h : stepWith m s = .next t) : t.Inv where
  capacity_pos := by rw [stepWith_capacity h]; exact hs.capacity_pos
  mem_wf := stepWith_mem_wf hs.mem_wf h
  programEnd_le := by rw [stepWith_capacity h, stepWith_programEnd h]; exact hs.programEnd_le
  depth_le := stepWith_depth_le hs.depth_le h
  idle_empty := fun hidle => absurd hidle (stepWith_ne_idle h)
  fault_halted := stepWith_keeps_fault_halted hs.fault_halted h
  fault_record := by
    intro record hrecord
    have hnone := hs.fault_eq_none (stepWith_next_cases h).1
    obtain ⟨e, he, rfl⟩ := takeFault_raises_of_stepWith hnone h (by simp [hrecord])
    cases hrecord
    exact ⟨hs.raises_nonneg he, he.1⟩

theorem steps_inv (hs : s.Inv) (h : Steps m s t) : t.Inv := by
  induction h with
  | refl => exact hs
  | step hstep _ ih => exact ih (stepWith_inv hs hstep)

/-! ## The program image -/

/-- In a state with the invariant neither the slot of a push nor that of a pop lies below `program_end + 2`. -/
theorem State.Inv.stepWith_read_program (hs : s.Inv) (h : stepWith m s = .next t) {a : Int}
    (ha : a < (s.programEnd : Int) + 2) : t.mem.read a = s.mem.read a := by
  have hsp := sp_eq s
  rcases stepWith_stack h with hpush | hpop | hkeep
  · have hroom := hpush.room
    exact hpush.read_of_ne (by omega)
  · have hpopped := hpop.depth
    have hdepth := hs.depth_le
    exact hpop.read_of_ne (by omega)
  · exact hkeep.sameMemory a

theorem State.Inv.steps_read_program (hs : s.Inv) (h : Steps m s t) {a : Int} (ha : a < (s.programEnd : Int) + 2) :
    t.mem.read a = s.mem.read a := by
  induction h with
  | refl => rfl
  | step hstep _ ih =>
    rw [ih (stepWith_inv hs hstep) (by rwa [stepWith_programEnd hstep]), hs.stepWith_read_program hstep ha]

/-! ## The statements -/

/-- Settles O46, field by field of `State.Inv` (`stepWith_inv`). -/
theorem everyStepKeepsTheInvariant : Obligations.EveryStepKeepsTheInvariant := fun _ _ _ => stepWith_inv

/-- Settles O50, by induction on the run: each step keeps the invariant and stores above the image. -/
theorem programImageIsNeverWritten : Obligations.ProgramImageIsNeverWritten := by
  refine ⟨fun m s t hs h a => hs.steps_read_program h, fun startIp s t h a => ?_⟩
  obtain ⟨-, rfl⟩ := startRun_eq_some.1 h
  rfl

/-- Settles O38: the stack manager's push and pop move the depth by 1, fault entry keeps it, and the invariant bounds it. -/
theorem stackDepthChanges : Obligations.StackDepthChanges := by
  refine ⟨fun _ => rfl, fun s => (popContract s).1, fun m s t hs h => (steps_inv hs h).depth_le,
    fun i s t hs h => ⟨fun ht => ?_, fun ht => ?_⟩⟩
  · rcases exec_next_cases h with he | ⟨e, -, rfl⟩
    · exact absurd ((effect_fault he).trans hs) ht
    · rfl
  · rcases exec_next_cases h with he | ⟨e, -, rfl⟩
    · exact ⟨fun hi => (effect_pushesByte he hi).depth, fun hi => (effect_popsByte he hi).depth,
        fun hi => (effect_keepsStack he hi).depth⟩
    · cases ht

/-- Settles O45: no cell is listed and no item is on the stack. -/
theorem constructedCoreHasTheInvariant : Obligations.ConstructedCoreHasTheInvariant :=
  ⟨fun _ => construct_inv, reset_eq_construct, construct_inv (by decide)⟩

/-- Settles O47: a load and the start of a run need Idle, where the stack is empty and no fault is recorded. -/
theorem hostOperationsKeepTheInvariant : Obligations.HostOperationsKeepTheInvariant := by
  refine ⟨fun start bytes s t hs h => ?_, fun startIp s t hs h => ?_⟩
  · obtain ⟨hidle, hfit, rfl⟩ := loadBytes_eq_ok.1 h
    have hempty := hs.idle_empty hidle
    exact { hs with
      capacity_pos := by simpa using hs.capacity_pos
      mem_wf := Memory.wf_storeBytes hs.mem_wf hfit
      programEnd_le := by simpa using hfit
      depth_le := by simp [hempty] }
  · obtain ⟨hidle, rfl⟩ := startRun_eq_some.1 h
    have hnone : s.fault = none := by
      by_contra hf
      cases hidle.symm.trans (hs.fault_halted hf)
    exact { hs with
      idle_empty := nofun
      fault_halted := fun hf => absurd hnone hf }

/-- Settles O48: an advance ends within the instruction's own bytes, which the fetch found in memory. -/
theorem programCounterStaysInRange : Obligations.ProgramCounterStaysInRange := by
  intro m s t hs h
  simp only [State.pcInRange, stepWith_capacity h] at hs ⊢
  obtain ⟨-, ⟨i, hf, he⟩ | ⟨e, rfl⟩⟩ := stepWith_next_cases h
  · have hwidth := fetchInstr_width_le hf
    rcases effect_pc_cases he with hpc | hpc | hpc <;> omega
  · exact hs

end Sys2Proof.Machine
end

section
/-! SUPPORT. 30_encoding.md: what the decoder reads off a byte string, and that assembling and writing out an instruction undo
each other; the statements on decoding settled from these. -/

namespace Sys2Proof.Machine

variable {m : OpcodeMap} {i : Instr} {bytes rest : List Byte}

/-- A byte string decodes when it begins with an opcode byte that has a handler and with that handler's operand bytes. -/
theorem decodeWith_eq_ok : decodeWith m bytes = .ok (i, rest) ↔ ∃ op mn operands, bytes = op :: (operands ++ rest) ∧
    m.lookup op = some mn ∧ operands.length = mn.operandCount ∧ assemble mn operands = i := by
  constructor
  · intro h
    cases bytes with
    | nil => cases h
    | cons op tail =>
      cases hlookup : m.lookup op with
      | none => simp [decodeWith, hlookup] at h
      | some mn =>
        simp only [decodeWith, hlookup] at h
        split at h
        · cases h
        · cases h
          exact ⟨op, mn, _, by rw [List.take_append_drop], hlookup, by rw [List.length_take]; omega, rfl⟩
  · rintro ⟨op, mn, operands, rfl, hlookup, hlen, rfl⟩
    simp [decodeWith, hlookup, ← hlen]

/-- A well-formed instruction is what its handler assembles from its operand bytes: the per-instruction laws, together. -/
theorem assemble_operandBytes (hi : i.wellFormed) : assemble i.mnemonic i.operandBytes = i := by
  cases i with
  | hlt => exact Laws.AssembleOperands.hlt hi
  | ldi r imm8 => exact Laws.AssembleOperands.ldi r imm8 hi
  | prn r => exact Laws.AssembleOperands.prn r hi
  | push r => exact Laws.AssembleOperands.push r hi
  | pop r => exact Laws.AssembleOperands.pop r hi
  | call r => exact Laws.AssembleOperands.call r hi
  | ret => exact Laws.AssembleOperands.ret hi
  | add a b => exact Laws.AssembleOperands.add a b hi
  | sub a b => exact Laws.AssembleOperands.sub a b hi
  | mul a b => exact Laws.AssembleOperands.mul a b hi
  | div a b => exact Laws.AssembleOperands.div a b hi

@[simp] theorem operandByte_toNat (b : Byte) : operandByte b.toNat = b := BitVec.ofNat_toNat 8 b

/-- A handler's instruction is written out as the operand bytes it was assembled from. -/
theorem operandBytes_assemble {mn : Mnemonic} {operands : List Byte} (hlen : operands.length = mn.operandCount) :
    (assemble mn operands).operandBytes = operands := by
  match mn, operands, hlen with
  | .hlt, [], _ => rfl
  | .ret, [], _ => rfl
  | .prn, [b], _ => simp [assemble, Instr.operandBytes]
  | .push, [b], _ => simp [assemble, Instr.operandBytes]
  | .pop, [b], _ => simp [assemble, Instr.operandBytes]
  | .call, [b], _ => simp [assemble, Instr.operandBytes]
  | .ldi, [b, c], _ => simp [assemble, Instr.operandBytes]
  | .add, [b, c], _ => simp [assemble, Instr.operandBytes]
  | .sub, [b, c], _ => simp [assemble, Instr.operandBytes]
  | .mul, [b, c], _ => simp [assemble, Instr.operandBytes]
  | .div, [b, c], _ => simp [assemble, Instr.operandBytes]

/-- A register operand that comes from a byte fits one. -/
theorem wellFormed_assemble (mn : Mnemonic) (operands : List Byte) : (assemble mn operands).wellFormed := by
  have hbyte (b : Byte) : b.toNat < 256 := b.isLt
  cases mn <;> simp only [assemble, Instr.wellFormed, operandFits, Instr.registerOperands, List.forall_mem_cons,
    List.not_mem_nil, false_implies, implies_true, and_true, hbyte]

theorem length_encodeWith (m : OpcodeMap) (i : Instr) : (encodeWith m i).length = i.mnemonic.width := by
  rw [encodeWith, List.length_cons, Laws.length_operandBytes, Mnemonic.width, Nat.add_comm]

/-- Settles O7: the opcode byte finds the instruction's handler, which assembles the instruction from its operand bytes. -/
theorem decodeOfEncodeIsIdentity : Obligations.DecodeOfEncodeIsIdentity := fun _ i _ hm hi =>
  decodeWith_eq_ok.2 ⟨_, i.mnemonic, i.operandBytes, rfl, Laws.lookup_opcodeOf hm.2 _, Laws.length_operandBytes i,
    assemble_operandBytes hi⟩

/-- Settles O8: the handler found has the opcode byte read, and its instruction is written out as the operand bytes read. -/
theorem encodeOfDecodeIsIdentity : Obligations.EncodeOfDecodeIsIdentity := by
  intro m bytes rest i h
  obtain ⟨op, mn, operands, rfl, hlookup, hlen, rfl⟩ := decodeWith_eq_ok.1 h
  refine ⟨wellFormed_assemble mn operands, ?_⟩
  rw [encodeWith, mnemonic_assemble, Laws.opcodeOf_of_lookup hlookup, operandBytes_assemble hlen, List.cons_append]

/-- Settles O9: the decoder runs on the words. -/
theorem writtenOutWordsDecode : Obligations.WrittenOutWordsDecode := ⟨rfl, rfl, rfl, rfl, rfl⟩

/-- Settles O10: both strings find the handler of their one opcode byte, and the width is the handler's. -/
theorem lengthComesFromTheOpcode : Obligations.LengthComesFromTheOpcode := by
  refine ⟨fun m i => ?_, fun m op bs bs' rest rest' i i' h h' => ?_⟩
  · rw [length_encodeWith]
    cases i <;> rfl
  · obtain ⟨op₁, mn, operands, hbytes, hlookup, hlen, rfl⟩ := decodeWith_eq_ok.1 h
    obtain ⟨op₂, mn', operands', hbytes', hlookup', hlen', rfl⟩ := decodeWith_eq_ok.1 h'
    obtain ⟨rfl, rfl⟩ := List.cons.inj hbytes
    obtain ⟨rfl, rfl⟩ := List.cons.inj hbytes'
    obtain rfl : mn = mn' := Option.some.inj (hlookup.symm.trans hlookup')
    simp only [mnemonic_assemble, length_encodeWith, List.length_append, true_and, and_true]
    omega

end Sys2Proof.Machine
end

section
/-! SUPPORT. 40_dispatch.md R100 to R103: the fetch of bytes that decode, an instruction placed at `pc`, and the statements on
what a step of a Running CORE does settled from these. -/

namespace Sys2Proof.Machine

variable {m : OpcodeMap} {i : Instr} {s : State}

/-- Bytes read one at a time are read together. -/
theorem readBytes_of_forall_read {mem : Memory} {a : Nat} {bs : List Byte}
    (h : ∀ (k : Nat) (hk : k < bs.length), mem.read ((a : Int) + k) = .ok bs[k]) : mem.readBytes a bs.length = .ok bs := by
  induction bs generalizing a with
  | nil => rfl
  | cons b bs ih =>
    refine readBytes_cons.2 ⟨(congrArg mem.read (add_zero (a : Int))).symm.trans (h 0 (Nat.succ_pos _)), ih fun k hk => ?_⟩
    have hread := h (k + 1) (by simpa using hk)
    rw [Nat.cast_add, Nat.cast_one, add_comm (k : Int) 1, ← add_assoc] at hread
    exact hread

/-- Bytes at `pc` that decode are what the fetch reads there. -/
theorem fetchInstr_of_decodeWith {bytes rest : List Byte}
    (hread : ∀ (k : Nat) (h : k < bytes.length), s.mem.read ((s.pc : Int) + k) = .ok bytes[k])
    (hdecode : decodeWith m bytes = .ok (i, rest)) : fetchInstr m s = .ok i := by
  obtain ⟨op, mn, operands, rfl, hlookup, hlen, hi⟩ := decodeWith_eq_ok.1 hdecode
  refine fetchInstr_eq_ok.2 ⟨op, mn, operands, by simpa using hread 0 (by simp), hlookup, ?_, hi⟩
  rw [← hlen]
  refine readBytes_of_forall_read fun k hk => ?_
  have hbyte := hread (k + 1) (by simp; omega)
  rw [List.getElem_cons_succ, List.getElem_append_left hk] at hbyte
  rw [← hbyte]
  congr 1
  omega

/-- Where they fit, placing bytes stores them. -/
theorem Memory.place_eq_storeBytes {mem : Memory} {a : Nat} {bs : List Byte} (hfit : a + bs.length ≤ mem.capacity) :
    Memory.place a bs mem = Memory.storeBytes a bs mem := by
  induction bs generalizing a mem with
  | nil => rfl
  | cons b bs ih =>
    rw [List.length_cons] at hfit
    rw [Memory.place, Memory.storeBytes, if_pos (by omega), ih (by rw [Memory.capacity_set]; omega)]

theorem decode_of_decodeTableWord {nbits w : Nat} (h : decodeTableWord nbits w = some i) :
    ∃ rest, decode (tableWordBytes nbits w) = .ok (i, rest) := by
  unfold decodeTableWord at h
  split at h
  · cases h
    exact ⟨_, ‹_›⟩
  · cases h

/-- Settles O12: the fetch reads what decodes, and only well-formed instructions do. -/
theorem stepRunsTheDecodedInstruction : Obligations.StepRunsTheDecodedInstruction :=
  ⟨fun m _ bytes rest i hr hread hdecode => ⟨(encodeOfDecodeIsIdentity m bytes rest i hdecode).1,
    stepWith_of_fetch hr (fetchInstr_of_decodeWith hread hdecode)⟩, fun _ => rfl⟩

/-- Settles O13: the opcode fetch is the first phase that can raise. -/
theorem fetchBeyondMemoryFaults : Obligations.FetchBeyondMemoryFaults := by
  intro m s hr hpc
  have hread : s.mem.read s.pc = .error ⟨.outOfBounds, s.pc⟩ := by rw [Memory.read_natCast, if_neg (by omega)]
  have hfetch : fetchInstr m s = .error ⟨.outOfBounds, s.pc⟩ := by rw [fetchInstr, hread, except_error_bind]
  rw [stepWith_of_fetch_error hr hfetch, takeFault_eq_afterFault, opcodeByte_of_capacity_le hpc]

/-- Settles O14: the lookup comes before the operand read, and the operand read reports the lowest missing address. -/
theorem decodeAndOperandFaults : Obligations.DecodeAndOperandFaults := by
  refine fun m s op hr hop => ⟨stepWith_of_lookup_none hr hop, fun mn hlookup hc => ⟨fun a _ => ?_,
    stepWith_of_missing_operand hr hop hlookup hc⟩⟩
  rw [Memory.read_natCast]
  split
  · exact ⟨nofun, fun _ => by omega⟩
  · exact ⟨fun _ => by omega, fun _ => rfl⟩

/-- Settles O16: the fetch faults or an instruction runs, and each is a next state. -/
theorem runningCoreAlwaysSteps : Obligations.RunningCoreAlwaysSteps := by
  intro m s hr
  obtain ⟨t, ht⟩ : ∃ t, stepWith m s = .next t := by
    cases hf : fetchInstr m s with
    | error e => exact ⟨_, stepWith_of_fetch_error hr hf⟩
    | ok i =>
      rw [stepWith_of_fetch hr hf]
      rcases exec_cases i s with ⟨t, -, h⟩ | ⟨e, -, h⟩
      · exact ⟨t, h⟩
      · exact ⟨_, h⟩
  exact ⟨t, ht, stepWith_ne_idle ht⟩

/-- Settles O17: the three bytes fit, so they are stored at `pc`, where the step fetches them. -/
theorem placedWordRunsNext : Obligations.PlacedWordRunsNext := by
  intro s nbits w i hfit hword
  obtain ⟨rest, hdecode⟩ := decode_of_decodeTableWord hword
  refine stepWith_of_fetch (withFetchWord_runState s nbits w) (fetchInstr_of_decodeWith (fun k hk => ?_) hdecode)
  rw [withFetchWord_mem, withFetchWord_pc, Memory.place_eq_storeBytes hfit]
  exact Memory.read_storeBytes_of_lt hfit hk

end Sys2Proof.Machine
end

section
/-! SUPPORT. 20_memory.md: the memory contract, the canonical form, and the stack over several items; the statements on them
settled from what one read, one write, one push and one pop do. -/

namespace Sys2Proof.Machine

variable {s t u : State}

/-! ## Canonical memories -/

/-- Two canonical cell lists that hold the same at every address are equal: the lower of the two first addresses would hold a
byte in one list and 0 in the other. -/
theorem cells_eq_of_cellAt_eq {cs ds : List Host.Cell} (hcs : cs.Pairwise (fun c d => c.1 < d.1)) (hc : ∀ c ∈ cs, c.2 ≠ 0)
    (hds : ds.Pairwise (fun c d => c.1 < d.1)) (hd : ∀ d ∈ ds, d.2 ≠ 0) (h : ∀ a, cellAt cs a = cellAt ds a) : cs = ds := by
  induction cs generalizing ds with
  | nil =>
    cases ds with
    | nil => rfl
    | cons d ds => exact absurd ((h d.1).trans cellAt_head).symm (hd d (by simp))
  | cons c cs ih =>
    cases ds with
    | nil => exact absurd (cellAt_head.symm.trans (h c.1)) (hc c (by simp))
    | cons d ds =>
      obtain ⟨hclt, hcs⟩ := List.pairwise_cons.1 hcs
      obtain ⟨hdlt, hds⟩ := List.pairwise_cons.1 hds
      obtain ⟨hcne, hc⟩ := List.forall_mem_cons.1 hc
      obtain ⟨hdne, hd⟩ := List.forall_mem_cons.1 hd
      have haddr : c.1 = d.1 := by
        rcases lt_trichotomy c.1 d.1 with hlt | heq | hgt
        · have hzero : cellAt (d :: ds) c.1 = 0 :=
            cellAt_of_lt (List.forall_mem_cons.2 ⟨hlt, fun e he => hlt.trans (hdlt e he)⟩)
          exact absurd (cellAt_head.symm.trans ((h c.1).trans hzero)) hcne
        · exact heq
        · have hzero : cellAt (c :: cs) d.1 = 0 :=
            cellAt_of_lt (List.forall_mem_cons.2 ⟨hgt, fun e he => hgt.trans (hclt e he)⟩)
          exact absurd (cellAt_head.symm.trans ((h d.1).symm.trans hzero)) hdne
      have hbyte : c.2 = d.2 := by
        have hfirst := h c.1
        rw [cellAt_head, haddr, cellAt_head] at hfirst
        exact hfirst
      have hrest : ∀ a, cellAt cs a = cellAt ds a := by
        intro a
        by_cases ha : c.1 = a
        · rw [cellAt_of_lt fun e he => ha ▸ hclt e he, cellAt_of_lt fun e he => ha ▸ haddr ▸ hdlt e he]
        · have hboth := h a
          simpa only [cellAt, ← haddr, if_neg ha] using hboth
      rw [Prod.ext haddr hbyte, ih hcs hc hds hd hrest]

theorem cellAt_of_forall_ne {cs : List Host.Cell} {a : Nat} (h : ∀ c ∈ cs, c.1 ≠ a) : cellAt cs a = 0 := by
  induction cs with
  | nil => rfl
  | cons c cs ih =>
    obtain ⟨hc, hcs⟩ := List.forall_mem_cons.1 h
    rw [cellAt, if_neg hc, ih hcs]

/-- In a canonical memory nothing is listed from the capacity up. -/
theorem Memory.byteAt_of_capacity_le {m : Memory} (hm : m.wf) {a : Nat} (ha : m.capacity ≤ a) : m.byteAt a = 0 :=
  cellAt_of_forall_ne fun c hc => by
    have hlt := (hm.2 c hc).2
    omega

/-- The capacity is the first address whose read fails. -/
theorem Memory.capacity_le_of_read_eq {m m' : Memory} (h : ∀ a : Int, m.read a = m'.read a) : m.capacity ≤ m'.capacity := by
  by_contra hlt
  have hread := h m'.capacity
  rw [Memory.read_natCast, Memory.read_natCast, if_pos (by omega), if_neg (by omega)] at hread
  cases hread

theorem Memory.byteAt_eq_of_read_eq {m m' : Memory} (hm : m.wf) (hm' : m'.wf) (h : ∀ a : Int, m.read a = m'.read a) (a : Nat) :
    m.byteAt a = m'.byteAt a := by
  have hcap : m.capacity = m'.capacity :=
    le_antisymm (Memory.capacity_le_of_read_eq h) (Memory.capacity_le_of_read_eq fun a => (h a).symm)
  by_cases ha : a < m.capacity
  · have hread := h a
    rw [Memory.read_natCast, Memory.read_natCast, if_pos ha, if_pos (hcap ▸ ha)] at hread
    exact Except.ok.inj hread
  · rw [Memory.byteAt_of_capacity_le hm (by omega), Memory.byteAt_of_capacity_le hm' (by omega)]

/-! ## Several pushes and pops -/

theorem pushAll_cons_eq_ok {v : Byte} {vs : List Byte} :
    pushAll (v :: vs) s = .ok t ↔ ∃ s₁, push v s = .ok s₁ ∧ pushAll vs s₁ = .ok t := by
  rw [pushAll]
  cases push v s <;> simp

/-- Several pops and one more take the last one's byte last. -/
theorem popMany_succ_of_pop {n : Nat} {vs : List Byte} {v : Byte} (hmany : popMany n s = .ok (vs, t))
    (hpop : pop t = .ok (v, u)) : popMany (n + 1) s = .ok (vs ++ [v], u) := by
  induction n generalizing s vs with
  | zero =>
    cases hmany
    simp [popMany, hpop]
  | succ n ih =>
    rw [popMany] at hmany ⊢
    cases hfirst : pop s with
    | error e => simp [hfirst] at hmany
    | ok p =>
      obtain ⟨w, s₁⟩ := p
      cases hrest : popMany n s₁ with
      | error e => simp [hfirst, hrest] at hmany
      | ok q =>
        obtain ⟨ws, t'⟩ := q
        simp only [hfirst, hrest, Except.ok.injEq, Prod.mk.injEq] at hmany
        obtain ⟨rfl, rfl⟩ := hmany
        simp only [ih hrest, List.cons_append]

/-- As many items as the capacity leaves room for can be pushed (20_memory.md section 4). -/
theorem exists_pushAll_iff {vs : List Byte} : (∃ t, pushAll vs s = .ok t) ↔
    vs = [] ∨ s.stackDepth + vs.length ≤ s.mem.capacity - 2 - s.programEnd := by
  induction vs generalizing s with
  | nil => exact ⟨fun _ => .inl rfl, fun _ => ⟨s, rfl⟩⟩
  | cons v vs ih =>
    have hstep : (∃ t, pushAll (v :: vs) s = .ok t) ↔ ∃ s₁, push v s = .ok s₁ ∧ ∃ t, pushAll vs s₁ = .ok t := by
      simp only [pushAll_cons_eq_ok]
      exact ⟨fun ⟨t, s₁, h, ht⟩ => ⟨s₁, h, t, ht⟩, fun ⟨s₁, h, t, ht⟩ => ⟨t, s₁, h, ht⟩⟩
    simp only [hstep, ih, push_eq_ok, List.length_cons, reduceCtorEq, false_or]
    constructor
    · rintro ⟨s₁, ⟨hroom, rfl⟩, rfl | hrest⟩
      · simp only [List.length_nil]
        omega
      · simp only [Memory.capacity_set] at hrest
        omega
    · intro hfit
      refine ⟨_, ⟨by omega, rfl⟩, ?_⟩
      cases vs with
      | nil => exact .inl rfl
      | cons w ws =>
        simp only [List.length_cons, Memory.capacity_set] at hfit ⊢
        exact .inr (by omega)

/-- The state a push that has room leads to. -/
def State.pushed (v : Byte) (s : State) : State :=
  { s with mem := s.mem.set (s.mem.capacity - 1 - s.stackDepth) v, stackDepth := s.stackDepth + 1 }

theorem push_eq_ok_iff_pushed {v : Byte} :
    push v s = .ok t ↔ s.programEnd + s.stackDepth + 2 < s.mem.capacity ∧ t = s.pushed v := push_eq_ok

theorem sp_pushed (v : Byte) (s : State) : (s.pushed v).sp = s.sp - 1 := by
  simp only [State.pushed, sp_eq, Memory.capacity_set]
  omega

theorem storedOnly_pushed (v : Byte) (hroom : s.programEnd + s.stackDepth + 2 < s.mem.capacity) :
    storedOnly s (s.pushed v) s.sp v := by
  have hsp := sp_eq s
  exact storedOnly_of_mem_eq_set rfl (by omega) (by omega)

/-- What a pop does one item above `s`: it takes the byte at the `SP` of `s` and leaves that slot zeroed. -/
theorem pop_of_depth_succ {v : Byte} (hdepth : t.stackDepth = s.stackDepth + 1) (hcap : t.mem.capacity = s.mem.capacity)
    (hread : t.mem.read s.sp = .ok v) : ∃ u, pop t = .ok (v, u) ∧ storedOnly t u s.sp 0 ∧ u.mem.capacity = s.mem.capacity ∧
      u = { t with mem := u.mem, stackDepth := s.stackDepth } := by
  have hsp := sp_eq s
  have hbound : t.mem.inBounds s.sp := (Memory.read_eq_ok.1 hread).1
  have hslot : s.sp = ((t.mem.capacity - t.stackDepth : Nat) : Int) := by omega
  have hbyte : t.mem.byteAt (t.mem.capacity - t.stackDepth) = v := by
    have htop := (Memory.read_eq_ok.1 hread).2
    rwa [hslot, Int.toNat_natCast] at htop
  obtain ⟨u, hu⟩ : ∃ u, pop t = .ok (v, u) := ⟨_, pop_eq_ok.2 ⟨by omega, by omega, by rw [hbyte]⟩⟩
  obtain ⟨-, -, hpair⟩ := pop_eq_ok.1 hu
  obtain ⟨-, rfl⟩ := Prod.mk.inj hpair
  refine ⟨_, hu, storedOnly_of_mem_eq_set rfl (by omega) hslot, hcap, ?_⟩
  simp only [hdepth, Nat.add_sub_cancel]

/-- Popping as many items as were pushed gives them back in reverse, and gives back the state but for the slots used. -/
theorem popMany_of_pushAll {vs : List Byte} (h : pushAll vs s = .ok t) : ∃ u, popMany vs.length t = .ok (vs.reverse, u) ∧
    u.mem.capacity = s.mem.capacity ∧ u = { s with mem := u.mem } ∧
    ∀ a : Int, (a ≤ s.sp - vs.length ∨ s.sp < a) → u.mem.read a = s.mem.read a := by
  induction vs generalizing s with
  | nil =>
    cases h
    exact ⟨_, rfl, rfl, rfl, fun _ _ => rfl⟩
  | cons v vs ih =>
    obtain ⟨s₁, hpush, hrest⟩ := pushAll_cons_eq_ok.1 h
    obtain ⟨hroom, rfl⟩ := push_eq_ok_iff_pushed.1 hpush
    obtain ⟨u, hmany, hcap, hu, hframe⟩ := ih hrest
    have hstored := storedOnly_pushed v hroom
    rw [sp_pushed] at hframe
    have htop : u.mem.read s.sp = .ok v := (hframe s.sp (by omega)).trans hstored.1
    obtain ⟨w, hpop, hzeroed, hwcap, hw⟩ := pop_of_depth_succ (congrArg State.stackDepth hu) hcap htop
    refine ⟨w, by simpa using popMany_succ_of_pop hmany hpop, hwcap, ?_, fun a ha => ?_⟩
    · rw [hw, hu]
      rfl
    · simp only [List.length_cons] at ha
      rw [hzeroed.2 a (by omega), hframe a (by omega), hstored.2 a (by omega)]

/-! ## The statements -/

/-- Settles O2: the bounds check decides, one byte is set, and the guard of a push keeps its write in bounds. -/
theorem memoryReadAndWriteContract : Obligations.MemoryReadAndWriteContract := by
  refine ⟨fun m addr v => ⟨fun hin => ⟨Memory.read_of_inBounds hin, m.set addr.toNat v, Memory.write_eq_ok.2 ⟨hin, rfl⟩, ?_⟩,
    fun hout => ⟨Memory.read_of_not_inBounds hout, if_neg hout⟩⟩, fun v s e h => ?_⟩
  · have haddr : addr = (addr.toNat : Int) := by omega
    have hread (b : Int) : (m.set addr.toNat v).read b = if b = addr then .ok v else m.read b := by
      rw [Memory.read_set (by omega), ← haddr]
    exact ⟨(hread addr).trans (if_pos rfl), fun b hb => (hread b).trans (if_neg hb)⟩
  · obtain ⟨-, rfl⟩ := push_eq_error.1 h
    rfl

/-- Settles O3: equal reads give equal capacities and equal bytes, and canonical cells are found from the bytes. -/
theorem canonicalMemoriesWithEqualReadsAreEqual : Obligations.CanonicalMemoriesWithEqualReadsAreEqual := by
  intro m m' hm hm' h
  have hcap : m.capacity = m'.capacity :=
    le_antisymm (Memory.capacity_le_of_read_eq h) (Memory.capacity_le_of_read_eq fun a => (h a).symm)
  have hcells : m.cells = m'.cells :=
    cells_eq_of_cellAt_eq hm.1 (fun c hc => (hm.2 c hc).1) hm'.1 (fun c hc => (hm'.2 c hc).1)
      (Memory.byteAt_eq_of_read_eq hm hm' h)
  cases m
  cases m'
  congr

/-- Settles O6, by induction on the items (`exists_pushAll_iff`, `popMany_of_pushAll`). -/
theorem stackIsLastInFirstOut : Obligations.StackIsLastInFirstOut := by
  refine fun vs s => ⟨exists_pushAll_iff, fun t h => ?_⟩
  obtain ⟨u, hmany, -, hu, hframe⟩ := popMany_of_pushAll h
  exact ⟨u, hmany, hu, hframe⟩

/-- Settles O23: the pop takes the byte the push stored (`pop_of_depth_succ`). -/
theorem pushThenPopMovesTheValue : Obligations.PushThenPopMovesTheValue := by
  intro r r2 hr hr2 s hroom
  have hsp := sp_eq s
  have hfits : s.programEnd + s.stackDepth + 2 < s.mem.capacity := by omega
  have hpush : push s.regs[r] s = .ok (s.pushed s.regs[r]) := push_eq_ok_iff_pushed.2 ⟨hfits, rfl⟩
  have hstored := storedOnly_pushed s.regs[r] hfits
  obtain ⟨u, hpop, hzeroed, -, hu⟩ := pop_of_depth_succ (t := (s.pushed s.regs[r]).advance 2) rfl rfl hstored.1
  refine ⟨(s.pushed s.regs[r]).advance 2, { u with regs := u.regs.set r2 s.regs[r], pc := u.pc + 2 }, ?_, ?_,
    ⟨hzeroed.1, fun b hb => (hzeroed.2 b hb).trans (hstored.2 b hb)⟩, ?_⟩
  · rw [exec_push_of_lt hr, hpush, except_ok_bind, finish_ok]
  · rw [exec_pop_of_lt hr2, hpop, except_ok_bind, finish_ok]
  · rw [hu]
    rfl

/-- Settles O26: the slot would lie below address 0, so the read of it fails. -/
theorem popBeyondTheCapacity : Obligations.PopBeyondTheCapacity := by
  intro s hdeep
  have hslot : (s.mem.capacity : Int) - s.stackDepth = s.sp + 1 := by rw [sp_eq]; omega
  have hpop : pop s = .error ⟨.outOfBounds, s.sp + 1⟩ := by
    rw [pop_eq, if_neg (by omega), if_neg (by omega), hslot]
  refine ⟨hpop, fun r hr => ?_, ?_⟩
  · rw [exec_pop_of_lt hr, hpop, except_error_bind, finish_error, takeFault_eq_afterFault]
  · rw [exec_ret, hpop, except_error_bind, finish_error, takeFault_eq_afterFault]

end Sys2Proof.Machine
end

section
/-! SUPPORT. 20_memory.md section 6 and 70_reset_and_hazards.md section 2: reads after a run of completing steps, and what the run
loop answers; the statements on them settled from these. -/

namespace Sys2Proof.Machine

variable {m : OpcodeMap} {s t : State}

/-! ## Reads after a run -/

/-- Each address reads as the last store of the run left it. -/
theorem stepsStoring_read {stores : List (Int × Byte)} (h : StepsStoring m stores s t) (a : Int) :
    t.mem.read a = s.mem.readAfter stores a := by
  induction h with
  | refl => rfl
  | step hfetch hstep hnone _ ih =>
    obtain ⟨i, hi, he⟩ := effect_of_stepWith hstep hnone
    obtain rfl := Except.ok.inj (hi.symm.trans hfetch)
    rw [ih, Memory.readAfter_append (effect_read he)]

/-- Settles O53: a fetch reads memory as the run's stores left it, so it decodes what the stores put there. -/
theorem fetchSeesEveryEarlierWrite : Obligations.FetchSeesEveryEarlierWrite := by
  refine ⟨fun m stores s t h => ⟨stepsStoring_read h, fun hr => ⟨fun bytes rest i hbytes hdecode => ?_,
    fun op hop hlookup => ?_⟩⟩, rfl⟩
  · exact stepWith_of_fetch hr
      (fetchInstr_of_decodeWith (fun k hk => (stepsStoring_read h _).trans (hbytes k hk)) hdecode)
  · exact stepWith_of_lookup_none hr ((stepsStoring_read h _).trans hop) hlookup

/-! ## The run loop -/

theorem hostRun_of_idle {fuel startIp : Nat} (hs : s.runState = .idle) :
    hostRun m fuel startIp s = runLoop m fuel { s with pc := startIp, runState := .running } := by
  rw [hostRun, startRun_eq_some.2 ⟨hs, rfl⟩]

theorem runLoop_of_halted {fuel : Nat} (hs : s.runState = .halted) : runLoop m fuel s = haltedResult s := by
  cases fuel <;> simp [runLoop, hs]

theorem runLoop_zero_of_running (hs : s.runState = .running) : runLoop m 0 s = .outOfFuel s := if_pos hs

theorem runLoop_succ_of_step {fuel : Nat} (h : stepWith m s = .next t) : runLoop m (fuel + 1) s = runLoop m fuel t := by
  simp [runLoop, (stepWith_next_cases h).1, h]

theorem haltedResult_of_none (h : s.fault = none) : haltedResult s = .ok s := by simp [haltedResult, h]

theorem haltedResult_of_some {record : FaultRecord} (h : s.fault = some record) : haltedResult s = .err record s := by
  simp [haltedResult, h]

/-- The loop answers a halt that steps reach within the bound. -/
theorem runLoop_of_stepsIn_halted {n fuel : Nat} (h : StepsIn m n s t) (hn : n ≤ fuel) (ht : t.runState = .halted) :
    runLoop m fuel s = haltedResult t := by
  induction h generalizing fuel with
  | refl => exact runLoop_of_halted ht
  | step hstep _ ih =>
    obtain ⟨fuel, rfl⟩ := Nat.exists_eq_add_of_lt hn
    rw [runLoop_succ_of_step hstep, ih (by omega) ht]

/-- The loop ends at a halt within the bound, or at the bound with the CORE still Running. -/
theorem runLoop_cases (fuel : Nat) (hs : s.runState ≠ .idle) : ∃ n t, n ≤ fuel ∧ StepsIn m n s t ∧
    ((t.runState = .halted ∧ runLoop m fuel s = haltedResult t) ∨
     (t.runState = .running ∧ n = fuel ∧ runLoop m fuel s = .outOfFuel t)) := by
  induction fuel generalizing s with
  | zero =>
    refine ⟨0, s, le_rfl, .refl, ?_⟩
    cases hr : s.runState with
    | idle => exact absurd hr hs
    | running => exact .inr ⟨rfl, rfl, runLoop_zero_of_running hr⟩
    | halted => exact .inl ⟨rfl, runLoop_of_halted hr⟩
  | succ fuel ih =>
    cases hr : s.runState with
    | idle => exact absurd hr hs
    | halted => exact ⟨0, s, Nat.zero_le _, .refl, .inl ⟨hr, runLoop_of_halted hr⟩⟩
    | running =>
      obtain ⟨t, hstep, ht⟩ := runningCoreAlwaysSteps m s hr
      obtain ⟨n, u, hn, hsteps, hu⟩ := ih ht
      rw [← runLoop_succ_of_step hstep] at hu
      refine ⟨n + 1, u, Nat.succ_le_succ hn, .step hstep hsteps, hu.imp_right ?_⟩
      rintro ⟨hrun, rfl, hloop⟩
      exact ⟨hrun, rfl, hloop⟩

/-- Settles O52: the loop ends at the first halt or at the bound (`runLoop_cases`), and a halt within one bound is answered
under every larger one (`runLoop_of_stepsIn_halted`). -/
theorem runEndsHaltedByHltOrFault : Obligations.RunEndsHaltedByHltOrFault := by
  refine ⟨fun m fuel startIp s hs => hostRun_of_startRun_none (startRun_eq_none_of_not_idle hs),
    fun m fuel startIp s hs => ?_⟩
  intro began
  have hrun (fuel : Nat) : hostRun m fuel startIp s = runLoop m fuel began := hostRun_of_idle hs
  obtain ⟨n, t, hn, hsteps, hend⟩ := runLoop_cases (m := m) (s := began) fuel nofun
  simp only [hrun]
  refine ⟨⟨n, t, hn, hsteps, ?_⟩, fun n' t' hn' hsteps' ht' => ⟨fun hnone => ?_, fun record hsome => ?_⟩,
    fun hfuel more => ?_⟩
  · rcases hend with ⟨ht, hloop⟩ | ⟨ht, hbound, hloop⟩
    · cases hf : t.fault with
      | none => exact .inl ⟨hloop.trans (haltedResult_of_none hf), ht, hf⟩
      | some record => exact .inr (.inl ⟨record, hloop.trans (haltedResult_of_some hf), ht, rfl⟩)
    · exact .inr (.inr ⟨hloop, ht, hbound⟩)
  · rw [runLoop_of_stepsIn_halted hsteps' hn' ht', haltedResult_of_none hnone]
  · rw [runLoop_of_stepsIn_halted hsteps' hn' ht', haltedResult_of_some hsome]
  · rcases hend with ⟨ht, hloop⟩ | ⟨-, -, hloop⟩
    · rw [hloop, runLoop_of_stepsIn_halted hsteps (by omega) ht]
    · exact absurd hloop (hfuel t)

end Sys2Proof.Machine
end

section
/-! SUPPORT. 10_state.md section 3: what a computation does with another value in a register it does not read, and the statement
on the registers each instruction reads settled from that. -/

namespace Sys2Proof.Machine

variable {i : Instr} {k : Fin 8} {v : Byte} {s t : State}

/-- The state with another value in one register. -/
def State.withRegister (k : Fin 8) (v : Byte) (s : State) : State := { s with regs := s.regs.set k v }

/-! ## Computations that pass another register through -/

/-- The computation does the same whatever register `k` holds, leaves it as it is, and emits nothing. -/
structure PassesRegister (k : Fin 8) (v : Byte) (f : State → Except Trap State) : Prop where
  commutes : ∀ s, f (s.withRegister k v) = (f s).map (State.withRegister k v)
  events : ∀ {s t}, f s = .ok t → t.events = s.events

variable {f g : State → Except Trap State}

theorem passesRegister_bind (hf : PassesRegister k v f) (hg : PassesRegister k v g) :
    PassesRegister k v (fun s => f s >>= g) where
  commutes s := by
    simp only [hf.commutes s]
    cases f s with
    | error e => rfl
    | ok t => exact hg.commutes t
  events h := by
    obtain ⟨t, ht, hu⟩ := except_bind_eq_ok.1 h
    exact (hg.events hu).trans (hf.events ht)

/-- Something read from the state, but not from register `k`, and then the rest of the computation. -/
theorem passesRegister_read {α : Type} {x : State → Except Trap α} {f : α → State → Except Trap State}
    (hx : ∀ s, x (s.withRegister k v) = x s) (hf : ∀ a, PassesRegister k v (f a)) :
    PassesRegister k v (fun s => x s >>= fun a => f a s) where
  commutes s := by
    simp only [hx s]
    cases x s with
    | error e => rfl
    | ok a => exact (hf a).commutes s
  events h := by
    obtain ⟨a, -, ht⟩ := except_bind_eq_ok.1 h
    exact (hf a).events ht

theorem passesRegister_error (e : Trap) : PassesRegister k v (fun _ => .error e) := ⟨fun _ => rfl, nofun⟩

theorem passesRegister_halt : PassesRegister k v (fun s => .ok { s with runState := .halted }) :=
  ⟨fun _ => rfl, fun h => by cases h; rfl⟩

theorem passesRegister_advance (n : Nat) : PassesRegister k v (fun s => pure (s.advance n)) :=
  ⟨fun _ => rfl, fun h => by cases h; rfl⟩

theorem passesRegister_jump (n : Nat) : PassesRegister k v (fun s => pure (s.jump n)) :=
  ⟨fun _ => rfl, fun h => by cases h; rfl⟩

theorem passesRegister_regOk (r : Nat) (hf : PassesRegister k v f) :
    PassesRegister k v (fun s => regOk r >>= fun _ => f s) :=
  passesRegister_read (fun _ => rfl) fun _ => hf

theorem readReg_withRegister {r : Nat} (hr : k.val ≠ r) (s : State) : readReg r (s.withRegister k v) = readReg r s := by
  unfold readReg
  split
  · rename_i hlt
    exact congrArg Except.ok (Vector.getElem_set_ne k.isLt hlt hr)
  · rfl

theorem passesRegister_readReg {r : Nat} (hr : k.val ≠ r) {f : Byte → State → Except Trap State}
    (hf : ∀ b, PassesRegister k v (f b)) : PassesRegister k v (fun s => readReg r s >>= fun b => f b s) :=
  passesRegister_read (readReg_withRegister hr) hf

theorem passesRegister_writeReg {r : Nat} (hr : k.val ≠ r) (b : Byte) : PassesRegister k v (writeReg r b) where
  commutes s := by
    unfold writeReg
    split
    · simp only [State.withRegister, Except.map, Vector.set_comm _ _ hr]
    · rfl
  events h := by
    obtain ⟨_, rfl⟩ := writeReg_eq_ok.1 h
    rfl

theorem passesRegister_push (b : Byte) : PassesRegister k v (push b) where
  commutes s := by
    simp only [push_eq, State.withRegister]
    split <;> rfl
  events h := by
    obtain ⟨-, rfl⟩ := push_eq_ok.1 h
    rfl

/-- A pop does not look at the registers (20_memory.md R61). -/
theorem pop_withRegister (k : Fin 8) (v : Byte) (s : State) :
    pop (s.withRegister k v) = (pop s).map (fun p => (p.1, p.2.withRegister k v)) := by
  simp only [pop_eq, State.withRegister]
  split
  · rfl
  · split <;> rfl

theorem pop_frame {p : Byte × State} (h : pop s = .ok p) : p.2.events = s.events ∧ p.2.fault = s.fault := by
  obtain ⟨-, -, rfl⟩ := pop_eq_ok.1 h
  exact ⟨rfl, rfl⟩

/-- A pop, and then the rest of the computation, given the popped byte and the state after. -/
theorem passesRegister_pop {f : Byte → State → Except Trap State} (hf : ∀ b, PassesRegister k v (f b)) :
    PassesRegister k v (fun s => pop s >>= fun p => f p.1 p.2) where
  commutes s := by
    simp only [pop_withRegister]
    cases pop s with
    | error e => rfl
    | ok p => exact (hf p.1).commutes p.2
  events h := by
    obtain ⟨p, hp, ht⟩ := except_bind_eq_ok.1 h
    exact ((hf p.1).events ht).trans (pop_frame hp).1

theorem passesRegister_arithmetic {a b : Nat} (ha : k.val ≠ a) (hb : k.val ≠ b) (tag : BitVec 8) :
    PassesRegister k v (arithmetic tag a b) := by
  refine passesRegister_regOk a (passesRegister_regOk b
    (passesRegister_readReg ha fun x => passesRegister_readReg hb fun y => ?_))
  split
  · exact passesRegister_writeReg ha _
  · exact passesRegister_error _
  · exact passesRegister_error _

/-! ## What the statement compares -/

/-- What the statement says of the states `t` and `u` that instruction `i` leads to from `s` and from `s` with `v` in register
`k`. -/
def SameButRegister (i : Instr) (k : Fin 8) (v : Byte) (s t u : State) : Prop :=
  ∃ new, u = { t with regs := u.regs, events := u.events } ∧
    t.events = s.events ++ new ∧ u.events = s.events ++ new.map (Event.withSnapshotEntry k v) ∧
    (∀ j : Fin 8, j ≠ k → u.regs[j] = t.regs[j]) ∧
    (i.registerOperands.head? = some k.val → t.fault = none → u.regs = t.regs) ∧
    (i.registerOperands.head? = some k.val → s.fault = none → t.fault ≠ none → u.regs = t.regs.set k v) ∧
    (i.registerOperands.head? ≠ some k.val → u.regs = t.regs.set k v)

/-- Register `k` passed through with `v` in it, and `v` in its place in the snapshots of the new events. -/
theorem sameButRegister_withRegister {new : List Event} (ht : t.events = s.events ++ new)
    (hi : i.registerOperands.head? = some k.val → t.fault ≠ none) :
    SameButRegister i k v s t
      { t.withRegister k v with events := s.events ++ new.map (Event.withSnapshotEntry k v) } :=
  ⟨new, rfl, ht, rfl, fun j hj => Vector.getElem_set_ne k.isLt j.isLt (Fin.val_ne_of_ne hj.symm),
    fun hhead hnone => absurd hnone (hi hhead), fun _ _ _ => rfl, fun _ => rfl⟩

theorem sameButRegister_takeFault (e : Trap) :
    SameButRegister i k v s (takeFault e s) (takeFault e (s.withRegister k v)) :=
  sameButRegister_withRegister (takeFault_events s e) fun _ => nofun

/-- A destination that was overwritten holds the same value either way. -/
theorem sameButRegister_self (hevents : t.events = s.events) (hfault : t.fault = s.fault)
    (hi : i.registerOperands.head? = some k.val) : SameButRegister i k v s t t :=
  ⟨[], rfl, by simpa using hevents, by simpa using hevents, fun _ _ => rfl, fun _ _ => rfl,
    fun _ hs ht => absurd (hfault.trans hs) ht, fun hhead => absurd hi hhead⟩

/-! ## Handlers -/

/-- A handler whose computation passes register `k` through, and that faults from the state before it. -/
theorem finish_of_passesRegister (hf : PassesRegister k v f) (hi : i.registerOperands.head? ≠ some k.val)
    (h : finish s (f s) = .next t) :
    ∃ u, finish (s.withRegister k v) (f (s.withRegister k v)) = .next u ∧ SameButRegister i k v s t u := by
  rw [hf.commutes]
  rcases finish_eq_next.1 h with hok | ⟨e, herr, rfl⟩
  · rw [hok]
    have hevents := hf.events hok
    have hsame := sameButRegister_withRegister (v := v) (t := t) (new := []) (by simpa using hevents)
      fun hhead => absurd hhead hi
    rw [List.map_nil, List.append_nil, ← hevents] at hsame
    exact ⟨_, rfl, hsame⟩
  · rw [herr]
    exact ⟨_, rfl, sameButRegister_takeFault e⟩

theorem finishArithmetic_withRegister {a b : Nat} {tag : BitVec 8} (hk : k.val ∉ [a, b])
    (hi : i.registerOperands = [a, b]) (h : finishArithmetic tag a b s = .next t) :
    ∃ u, finishArithmetic tag a b (s.withRegister k v) = .next u ∧ SameButRegister i k v s t u := by
  obtain ⟨ha, hb⟩ : k.val ≠ a ∧ k.val ≠ b := by simpa using hk
  refine finish_of_passesRegister (passesRegister_bind (passesRegister_arithmetic ha hb tag) (passesRegister_advance 3)) ?_ h
  rw [hi]
  exact fun hhead => ha (Option.some.inj hhead).symm

/-- LDI overwrites its register. -/
theorem exec_ldi_withRegister_self {imm8 : Byte} (h : exec (.ldi k imm8) s = .next t) :
    exec (.ldi k imm8) (s.withRegister k v) = .next t ∧ t.events = s.events ∧ t.fault = s.fault := by
  rw [exec_ldi_of_lt k.isLt] at h ⊢
  cases h
  exact ⟨by simp only [State.withRegister, Vector.set_set], rfl, rfl⟩

/-- PRN prints its own register, which is another one, and shows register `k` in the snapshot. -/
theorem exec_prn_withRegister {r : Nat} (hk : k.val ≠ r) (h : exec (.prn r) s = .next t) :
    ∃ u, exec (.prn r) (s.withRegister k v) = .next u ∧ SameButRegister (.prn r) k v s t u := by
  have hhead : (Instr.prn r).registerOperands.head? ≠ some k.val := fun hhead => hk (Option.some.inj hhead).symm
  by_cases hr : r < 8
  · rw [exec_prn_of_lt hr] at h ⊢
    have hvalue : (s.withRegister k v).regs[r] = s.regs[r] := Vector.getElem_set_ne k.isLt hr hk
    have hevents : t.events = s.events ++ [.print s.pc s.opcodeByte s.regs s.regs[r]] := by cases h; rfl
    refine ⟨_, ?_, sameButRegister_withRegister hevents fun heq => absurd heq hhead⟩
    rw [hvalue]
    cases h
    rfl
  · have hfault (s : State) : exec (.prn r) s = .next (takeFault ⟨.invalidRegister, r⟩ s) :=
      finish_regOk_of_ge (Nat.le_of_not_lt hr)
    rw [hfault] at h ⊢
    cases h
    exact ⟨_, rfl, sameButRegister_takeFault _⟩

/-- POP overwrites its register, or faults with the register as it was. -/
theorem exec_pop_withRegister_self (h : exec (.pop k) s = .next t) :
    ∃ u, exec (.pop k) (s.withRegister k v) = .next u ∧ SameButRegister (.pop k) k v s t u := by
  rw [exec_pop_of_lt k.isLt] at h ⊢
  rw [pop_withRegister]
  cases hp : pop s with
  | error e =>
    rw [hp] at h
    cases h
    exact ⟨_, rfl, sameButRegister_takeFault e⟩
  | ok p =>
    rw [hp] at h
    cases h
    obtain ⟨hevents, hfault⟩ := pop_frame hp
    exact ⟨_, by simp only [Except.map, State.withRegister, Vector.set_set, except_ok_bind, finish_ok],
      sameButRegister_self hevents hfault rfl⟩

/-- An instruction that does not read register `k` either passes it through or, as LDI and POP, overwrites it. -/
theorem exec_withRegister (hk : k.val ∉ registersRead i) (h : exec i s = .next t) :
    ∃ u, exec i (s.withRegister k v) = .next u ∧ SameButRegister i k v s t u := by
  cases i with
  | hlt => exact finish_of_passesRegister passesRegister_halt nofun h
  | ldi r imm8 =>
    by_cases hr : k.val = r
    · subst hr
      obtain ⟨hu, hevents, hfault⟩ := exec_ldi_withRegister_self (v := v) h
      exact ⟨t, hu, sameButRegister_self hevents hfault rfl⟩
    · exact finish_of_passesRegister (passesRegister_regOk r
        (passesRegister_bind (passesRegister_writeReg hr _) (passesRegister_advance _)))
        (fun hhead => hr (Option.some.inj hhead).symm) h
  | prn r => exact exec_prn_withRegister (fun hr => hk (List.mem_singleton.2 hr)) h
  | push r =>
    have hr : k.val ≠ r := fun hr => hk (List.mem_singleton.2 hr)
    exact finish_of_passesRegister (passesRegister_regOk r (passesRegister_readReg hr fun b =>
      passesRegister_bind (passesRegister_push b) (passesRegister_advance _)))
      (fun hhead => hr (Option.some.inj hhead).symm) h
  | pop r =>
    by_cases hr : k.val = r
    · subst hr
      exact exec_pop_withRegister_self h
    · exact finish_of_passesRegister (passesRegister_regOk r (passesRegister_pop fun b =>
        passesRegister_bind (passesRegister_writeReg hr b) (passesRegister_advance _)))
        (fun hhead => hr (Option.some.inj hhead).symm) h
  | call r =>
    have hr : k.val ≠ r := fun hr => hk (List.mem_singleton.2 hr)
    exact finish_of_passesRegister (i := .call r) (passesRegister_regOk r (passesRegister_readReg hr fun target =>
      passesRegister_read (x := fun s => returnAddress s.pc) (fun _ => rfl) fun self =>
        passesRegister_bind (passesRegister_push self) (passesRegister_jump _)))
      (fun hhead => hr (Option.some.inj hhead).symm) h
  | ret => exact finish_of_passesRegister (passesRegister_pop fun b => passesRegister_jump (b.toNat + 2)) nofun h
  | add a b => exact finishArithmetic_withRegister hk rfl h
  | sub a b => exact finishArithmetic_withRegister hk rfl h
  | mul a b => exact finishArithmetic_withRegister hk rfl h
  | div a b => exact finishArithmetic_withRegister hk rfl h

/-- Settles O36, instruction by instruction (`exec_withRegister`). -/
theorem onlyTheRegistersReadMatter : Obligations.OnlyTheRegistersReadMatter := by
  intro i s t k v hk h
  obtain ⟨u, hu, new, hsame⟩ := exec_withRegister (v := v) hk h
  exact ⟨u, new, hu, hsame⟩

end Sys2Proof.Machine
end
